-- ==== Sys2Proof/Word.lean ====
section
/-!
DEFINITION. The word types of the infrared pulse-train decoder (IRD).
A stimulus word (30_encoding.md R65), a frame word (R60) and the register SHIFT (10_state.md R20) are 32 bits each.
A tick has W = `P_TICK_WIDTH` bits, at most 32 (00_scope.md R6): it is held zero-extended in 32 bits.
-/

namespace Sys2Proof

/-- A 32-bit word: a stimulus word, a frame word, or the contents of SHIFT. -/
abbrev Word := BitVec 32

/-- One field of a frame word (30_encoding.md R60). -/
abbrev Byte := BitVec 8

/-- A tick: a W-bit unsigned value, held zero-extended in 32 bits (00_scope.md R6: W is at most 32). -/
abbrev Tick := BitVec 32

end Sys2Proof
end

