-- ==== Sys2Proof/Config.lean ====
section
/-!
DEFINITION. The configuration parameters of the IRD (00_scope.md R6, R8), which are fixed from reset onward.
The spec leaves no instruction result undefined, so this model has no free value: every open quantity is a parameter here.
-/

namespace Sys2Proof

/-- The parameters of 00_scope.md R6. All bounds are counts of ticks. -/
structure Config where
  /-- `P_TICK_WIDTH` (W). -/
  tickWidth : Nat
  /-- `P_TICK_HZ`: no rule of the machine reads it (R6); it converts nominal times to ticks. -/
  tickHz : Nat
  /-- `P_ZERO_MIN`. -/
  zeroMin : Nat
  /-- `P_ZERO_MAX`. -/
  zeroMax : Nat
  /-- `P_ONE_MIN`. -/
  oneMin : Nat
  /-- `P_ONE_MAX`. -/
  oneMax : Nat
  /-- `P_LEAD_MIN`. -/
  leadMin : Nat
  /-- `P_LEAD_MAX`. -/
  leadMax : Nat
  /-- `P_ABORT`: the smallest delta classed ABORT (40_interval_classifier.md R83). -/
  abort : Nat
  /-- `P_REQUIRE_LEADER` (00_scope.md R8). -/
  requireLeader : Bool
  deriving DecidableEq, Repr

/-- 2^W, the number of ticks before the timer wraps. -/
def Config.modulus (c : Config) : Nat := 2 ^ c.tickWidth

/-- RC1, the reference configuration of 00_scope.md R6. -/
def Config.rc1 : Config where
  tickWidth := 16
  tickHz := 1000000
  zeroMin := 800
  zeroMax := 1500
  oneMin := 1800
  oneMax := 2700
  leadMin := 12500
  leadMax := 14500
  abort := 15000
  requireLeader := true

end Sys2Proof
end

