-- ==== Sys2Proof/Syntax.lean ====
section
/-!
DEFINITION. The stimuli of the IRD, one constructor per row of spec/opcode_table.json.
A value of this type is the record (op, pol, tick) of 20_memory.md R42: its constructor gives op and pol.
-/

namespace Sys2Proof

/-- The four stimuli (41_stimulus_operations.md R100, R103, R104, R106). -/
inductive Instr where
  /-- `EDGE.F tick`: a falling edge at `tick`. -/
  | edgeF (tick : Tick)
  /-- `EDGE.R tick`: a rising edge at `tick`. -/
  | edgeR (tick : Tick)
  /-- `TIMEOUT`: the idle-timeout strobe. -/
  | timeout
  /-- `RESET`: power-up or reset of the block. -/
  | reset
  deriving DecidableEq, Repr

end Sys2Proof
end

