-- ==== Sys2Proof/WellFormed.lean ====
section
/-!
DEFINITION. Which configurations and which stimuli are well-formed.
-/

namespace Sys2Proof

/-- A well-formed configuration, the two conditions of 00_scope.md R7 written out. -/
def Config.WellFormed (c : Config) : Prop :=
  (1 ≤ c.tickWidth ∧ c.tickWidth ≤ 32) ∧
  (0 < c.zeroMin ∧ c.zeroMin ≤ c.zeroMax ∧ c.zeroMax < c.oneMin ∧ c.oneMin ≤ c.oneMax ∧
    c.oneMax < c.leadMin ∧ c.leadMin ≤ c.leadMax ∧ c.leadMax < c.abort ∧ c.abort ≤ c.modulus - 1)
  deriving Decidable

/-- TICK as a number: the tick of an EDGE, and 0 for TIMEOUT and RESET, which have none (30_encoding.md R65). -/
def Instr.tickValue : Instr → Nat
  | .edgeF t => t.toNat
  | .edgeR t => t.toNat
  | .timeout => 0
  | .reset => 0

/-- A well-formed record: its tick is in 0 .. 2^W - 1 (20_memory.md R42). -/
def Instr.WellFormed (c : Config) (i : Instr) : Prop := i.tickValue < c.modulus
  deriving Decidable

/-- The 32-bit stimulus word carries ticks of at most 24 bits (00_scope.md R6, 30_encoding.md R65, R67). -/
abbrev Config.FitsWord (c : Config) : Prop := c.tickWidth ≤ 24

end Sys2Proof
end

