-- ==== Sys2Proof/Decode.lean ====
section
/-!
DEFINITION. The 32-bit stimulus word (30_encoding.md R65 to R69): the decoder, total on every word, which refuses by
name, and after it the encoder. The port carries whole words, so no byte order arises (20_memory.md R40, R47).
-/

namespace Sys2Proof

/-- Why a stimulus word is refused (60_exceptions.md R141), in the order in which R147 tests the reasons. -/
inductive Reject where
  /-- The configuration breaks 00_scope.md R7. -/
  | badConfig
  /-- W > 24: the word cannot carry the tick (30_encoding.md R67). -/
  | wordTooNarrow
  /-- OP = 11 (30_encoding.md R67). -/
  | reservedOp
  /-- A reserved bit is set (30_encoding.md R67). -/
  | reservedBits
  /-- TICK is 2^W or more (30_encoding.md R67). -/
  | tickRange
  deriving DecidableEq, Repr

/-- OP, bits 31:30 (30_encoding.md R65). -/
def Word.op (w : Word) : BitVec 2 := w.extractLsb' 30 2

/-- POL, bit 29 (30_encoding.md R65): set for a rising edge. -/
def Word.pol (w : Word) : Bool := w.getLsbD 29

/-- RSV, bits 28:24 (30_encoding.md R65). -/
def Word.rsv (w : Word) : BitVec 5 := w.extractLsb' 24 5

/-- TICK, bits 23:0 (30_encoding.md R65). -/
def Word.tickField (w : Word) : BitVec 24 := w.extractLsb' 0 24

/-- Bits 29:0, all of which must be 0 in a TIMEOUT and in a RESET (30_encoding.md R67). -/
def Word.belowOp (w : Word) : BitVec 30 := w.extractLsb' 0 30

/-- An EDGE word, OP = 00: RSV is tested before TICK (60_exceptions.md R147), and TICK is taken as it stands,
zero-extended after the range check (30_encoding.md R65). -/
def decodeEdge (c : Config) (w : Word) : Except Reject Instr :=
  if w.rsv ≠ 0#5 then .error .reservedBits
  else if c.modulus ≤ w.tickField.toNat then .error .tickRange
  else if w.pol then .ok (.edgeR (w.tickField.setWidth 32))
  else .ok (.edgeF (w.tickField.setWidth 32))

/-- A word with no operand: it stands for `i` when bits 29:0 are all 0 (30_encoding.md R67). -/
def decodeStrobe (i : Instr) (w : Word) : Except Reject Instr :=
  if w.belowOp ≠ 0#30 then .error .reservedBits else .ok i

/-- The fields of a word, in a configuration that the word can serve (30_encoding.md R65, R66). -/
def decodeFields (c : Config) (w : Word) : Except Reject Instr :=
  if w.op = 3#2 then .error .reservedOp
  else if w.op = 0#2 then decodeEdge c w
  else if w.op = 1#2 then decodeStrobe .timeout w
  else decodeStrobe .reset w

/-- The decoder of stimulus words (30_encoding.md R67): every word is one of the four stimuli or one refusal, the first
that holds in the order of 60_exceptions.md R147. -/
def decode (c : Config) (w : Word) : Except Reject Instr :=
  if ¬ c.WellFormed then .error .badConfig
  else if ¬ c.FitsWord then .error .wordTooNarrow
  else decodeFields c w

/-- A word laid out from its fields (30_encoding.md R65). -/
def packWord (op : BitVec 2) (pol : BitVec 1) (tick : BitVec 24) : Word :=
  op ++ pol ++ 0#5 ++ tick

/-- The stimulus word of a stimulus (30_encoding.md R65, R66). -/
def encode : Instr → Word
  | .edgeF t => packWord 0#2 0#1 (t.setWidth 24)
  | .edgeR t => packWord 0#2 1#1 (t.setWidth 24)
  | .timeout => packWord 1#2 0#1 0#24
  | .reset => packWord 2#2 0#1 0#24

/-- The `match` of a stimulus' row in the opcode map (30_encoding.md R66). -/
def Instr.rowMatch : Instr → Word
  | .edgeF _ => 0x00000000#32
  | .edgeR _ => 0x20000000#32
  | .timeout => 0x40000000#32
  | .reset => 0x80000000#32

/-- The `mask` of a stimulus' row in the opcode map (30_encoding.md R66). -/
def Instr.rowMask : Instr → Word
  | .edgeF _ => 0xFF000000#32
  | .edgeR _ => 0xFF000000#32
  | .timeout => 0xFFFFFFFF#32
  | .reset => 0xFFFFFFFF#32

/-- The low `nbits` bits of `w` as one stimulus word; every bit above them is 0, since no stimulus is longer (R69). -/
def wordOfBits (nbits w : Nat) : Word := BitVec.ofNat 32 (w % 2 ^ nbits)

/-- The stimulus that the decoder reads from the bits `w`, under the reference configuration RC1, which is the one
`State.reset` carries (assumption 9). -/
def decodeTableWord (nbits w : Nat) : Option Instr :=
  match decode Config.rc1 (wordOfBits nbits w) with
  | .ok i => some i
  | .error _ => none

end Sys2Proof
end

