-- ==== Sys2Proof/Machine/State.lean ====
section
/-!
DEFINITION. The state of the IRD (10_state.md R20), its ports, what stops a step, and the state after reset.
-/

namespace Sys2Proof.Machine

/-- One event of the output port (30_encoding.md R63). -/
structure Event where
  /-- `EVT_FRAME`, the completed frame word. -/
  frame : Word
  /-- `EVT_CMD`, the command byte. -/
  cmd : Byte
  /-- `EVT_VALID`, the validity flag. -/
  valid : Bool
  deriving DecidableEq, Repr

/-- One stimulus at the input port, in either form that the spec gives it. -/
inductive Input where
  /-- The 32-bit stimulus word (30_encoding.md R65). -/
  | word (w : Word)
  /-- The record (op, pol, tick) (20_memory.md R42), which serves every W. -/
  | record (i : Instr)
  deriving DecidableEq, Repr

/-- The state: the five registers of 10_state.md R20, the output port, and the model's own `cfg`, `trace` and `input`. -/
structure State where
  /-- The configuration, which no step changes (00_scope.md R6; assumption 1). -/
  cfg : Config
  /-- `HAS_LAST`, 1 bit (10_state.md R21). -/
  hasLast : Bool
  /-- `T_LAST`, W bits, zero-extended (10_state.md R22; assumption 4). -/
  tLast : Tick
  /-- `IN_FRAME`, 1 bit (10_state.md R20). -/
  inFrame : Bool
  /-- `BIT_CNT`, 5 bits (10_state.md R23). -/
  bitCnt : BitVec 5
  /-- `SHIFT`, 32 bits (10_state.md R24). -/
  shift : Word
  /-- The output port during the stimulus that led to this state (10_state.md R30): `none` is EVT = 0, and then the data
  fields carry no value. -/
  evt : Option Event
  /-- The run's output trace, oldest event first (42_frame_assembly.md R128; assumption 3). -/
  trace : List Event
  /-- The stimuli waiting at the input port, the next one first (20_memory.md R42, R51; assumption 2). -/
  input : List Input
  deriving DecidableEq, Repr

/-- What stops the machine with a fault. -/
inductive Fault where
  /-- `UNREACHABLE_STATE` (60_exceptions.md R142): raised by every step that starts from a state breaking an invariant of
  10_state.md R25. It records the whole state (R143). Safe: no run from reset reaches such a state. -/
  | unreachableState (s : State)
  deriving DecidableEq, Repr

/-- What a step refuses (60_exceptions.md R141), each with the offending word or configuration (R143). -/
inductive Refusal where
  /-- `RESERVED_OP`: raised when the input port gives a word with OP = 11. Safe. -/
  | reservedOp (w : Word)
  /-- `RESERVED_BITS`: raised when the input port gives a word with a reserved bit set. Safe. -/
  | reservedBits (w : Word)
  /-- `TICK_RANGE`: raised when the input port gives a word or a record whose tick is 2^W or more. Safe. -/
  | tickRange (x : Input)
  /-- `WORD_TOO_NARROW`: raised when the input port gives a word and W > 24. Safe. -/
  | wordTooNarrow (w : Word)
  /-- `BAD_CONFIG`: raised by every step under a configuration that breaks 00_scope.md R7. Safe. -/
  | badConfig (c : Config)
  /-- A stimulus with no meaning in the model. Safe. No arm of `exec` raises it. -/
  | notModelled (mnemonic : String)
  deriving DecidableEq, Repr

/-- The state after reset under the configuration `c`, with nothing waiting at the input port and nothing emitted
(70_reset_and_hazards.md R160). -/
def State.resetWith (c : Config) : State where
  cfg := c
  hasLast := false
  tLast := 0#32
  inFrame := false
  bitCnt := 0#5
  shift := 0x00000000#32
  evt := none
  trace := []
  input := []

/-- The machine right after reset (70_reset_and_hazards.md R160), under the reference configuration RC1 (assumption 1). -/
def State.reset : State := State.resetWith Config.rc1

end Sys2Proof.Machine
end

