-- ==== Sys2Proof/Machine/Flags.lean ====
section
/-!
DEFINITION. The fields of a frame word (30_encoding.md R60, R61) and the VALID flag computed from them
(42_frame_assembly.md R125). The two state flags HAS_LAST and IN_FRAME (10_state.md R26) are fields of `State`.
-/

namespace Sys2Proof.Machine

/-- ADDR, bits 31:24. -/
def frameAddr (f : Word) : Byte := f.extractLsb' 24 8

/-- NADDR, bits 23:16. -/
def frameNaddr (f : Word) : Byte := f.extractLsb' 16 8

/-- CMD, bits 15:8. -/
def frameCmd (f : Word) : Byte := f.extractLsb' 8 8

/-- NCMD, bits 7:0. -/
def frameNcmd (f : Word) : Byte := f.extractLsb' 0 8

/-- The frame word of four fields, in the order of 30_encoding.md R60. -/
def frameOf (addr naddr cmd ncmd : Byte) : Word := addr ++ naddr ++ cmd ++ ncmd

/-- Byte `k` of a frame word, 0 being the first received: bits 31-8k : 24-8k (20_memory.md R47). -/
def frameByte (f : Word) (k : Fin 4) : Byte := f.extractLsb' (24 - 8 * k.val) 8

/-- `Valid(f)`, the source's weak check and no complement check (42_frame_assembly.md R125, 90_conflicts.md C5). -/
def valid (f : Word) : Bool :=
  frameAddr f &&& frameNaddr f == 0#8 && frameCmd f &&& frameNcmd f == 0#8

/-- The event of a completed frame (42_frame_assembly.md R128, R129). -/
def frameEvent (f : Word) : Event := ⟨f, frameCmd f, valid f⟩

end Sys2Proof.Machine
end

