-- ==== Sys2Proof/Machine/Operands.lean ====
section
/-!
DEFINITION. The one operand of a stimulus, the tick, and what EDGE.F computes from it: the modular delta and its class
(40_interval_classifier.md).
-/

namespace Sys2Proof.Machine

/-- The delta of a falling edge at `t` against the reference `tLast`: exact subtraction, then modulo 2^W
(40_interval_classifier.md R80). -/
def delta (c : Config) (tLast t : Tick) : Nat :=
  (((t.toNat : Int) - (tLast.toNat : Int)) % (c.modulus : Int)).toNat

/-- The five classes of an interval (40_interval_classifier.md R81). -/
inductive IntervalClass where
  | zero
  | one
  | leader
  | noise
  | abort
  deriving DecidableEq, Repr

/-- `CLASSIFY`: the first test that holds decides, windows inclusive at both ends (40_interval_classifier.md R81). -/
def classify (c : Config) (d : Nat) : IntervalClass :=
  if c.abort ≤ d then .abort
  else if c.leadMin ≤ d ∧ d ≤ c.leadMax then .leader
  else if c.oneMin ≤ d ∧ d ≤ c.oneMax then .one
  else if c.zeroMin ≤ d ∧ d ≤ c.zeroMax then .zero
  else .noise

/-- The class codes of 30_encoding.md R64, for traces; no output of the IRD carries them. -/
def IntervalClass.code : IntervalClass → Nat
  | .zero => 0
  | .one => 1
  | .leader => 2
  | .noise => 3
  | .abort => 4

/-- The trace code of a falling edge at `t` in state `s`: its class code, or 5 (FIRST) where it is not classified
(30_encoding.md R64). -/
def edgeCode (s : State) (t : Tick) : Nat :=
  if s.hasLast then (classify s.cfg (delta s.cfg s.tLast t)).code else 5

/-- The tick that the environment's free-running W-bit timer shows at the true time `time`, a count of ticks since the
timer started (20_memory.md R43, 60_exceptions.md R151). -/
def tickAt (c : Config) (time : Nat) : Tick := BitVec.ofNat 32 (time % c.modulus)

end Sys2Proof.Machine
end

