-- ==== Sys2Proof/Machine/Ops.lean ====
section
/-!
DEFINITION. The shared operations over the IRD's registers and ports: frame assembly (42_frame_assembly.md), the
invariants (10_state.md R25), the guard that every stimulus passes, and the input port. The block has no memory and takes
no traps (20_memory.md R40, 60_exceptions.md R148), so no operation reads memory or enters a handler.
-/

namespace Sys2Proof.Machine

/-! ### The output port -/

/-- No event during this stimulus: the strobe EVT is 0 (10_state.md R30). -/
def State.strobeLow (s : State) : State := { s with evt := none }

/-- `emit`: the strobe carries `e` during this stimulus, and the run's trace records it (42_frame_assembly.md R128). -/
def State.emit (e : Event) (s : State) : State := { s with evt := some e, trace := s.trace ++ [e] }

/-- The strobe EVT (10_state.md R30). -/
def State.evtStrobe (s : State) : Bool := s.evt.isSome

/-! ### The frame registers -/

/-- `FrameReset()` (42_frame_assembly.md R120). -/
def State.frameReset (s : State) : State :=
  { s with bitCnt := 0#5, shift := 0x00000000#32, inFrame := false }

/-- The LEADER action: a new, empty frame is open (42_frame_assembly.md R121). -/
def State.openFrame (s : State) : State :=
  { s with bitCnt := 0#5, shift := 0x00000000#32, inFrame := true }

/-- `w` with bit `k` set to `b`. -/
def setBit (w : Word) (k : Nat) (b : Bool) : Word :=
  if b then w ||| 1#32 <<< k else w &&& ~~~(1#32 <<< k)

/-- SHIFT with the next bit of the frame written: bit 31 - BIT_CNT is set to `b` (42_frame_assembly.md R123). -/
def State.shiftWith (s : State) (b : Bool) : Word := setBit s.shift (31 - s.bitCnt.toNat) b

/-- `AcceptBit(b)` (42_frame_assembly.md R123): the 32nd bit emits the frame's event and then resets the frame (R127). -/
def State.acceptBit (b : Bool) (s : State) : State :=
  if s.bitCnt = 31#5 then (s.emit (frameEvent (s.shiftWith b))).frameReset
  else { s with shift := s.shiftWith b, bitCnt := s.bitCnt + 1#5 }

/-- The ZERO or ONE action: not accepted while a leader is required and no frame is open (42_frame_assembly.md R126). -/
def State.bitInterval (b : Bool) (s : State) : State :=
  if s.cfg.requireLeader && !s.inFrame then s else s.acceptBit b

/-- What a class does to the frame (42_frame_assembly.md R121 to R126). -/
def State.classAction (k : IntervalClass) (s : State) : State :=
  match k with
  | .abort => s.frameReset
  | .leader => s.openFrame
  | .noise => s
  | .zero => s.bitInterval false
  | .one => s.bitInterval true

/-- The index of the frame byte being filled, 0 being bits 31:24 (10_state.md R23). -/
def State.byteIndex (s : State) : Nat := (s.bitCnt.extractLsb' 3 2).toNat

/-- The position in that byte of the next bit, 7 being its most significant (10_state.md R23). -/
def State.bitInByte (s : State) : Nat := 7 - (s.bitCnt.extractLsb' 0 3).toNat

/-! ### The invariants and the guard -/

/-- No bit of a frame is held and no frame is open. -/
def State.FrameIdle (s : State) : Prop := s.inFrame = false ∧ s.bitCnt = 0#5 ∧ s.shift = 0#32
  deriving Decidable

/-- I2 of 10_state.md R25: SHIFT[31 - BIT_CNT : 0], read as an unsigned number (00_scope.md R10), is 0. -/
def State.ShiftClear (s : State) : Prop := s.shift.toNat % 2 ^ (32 - s.bitCnt.toNat) = 0
  deriving Decidable

/-- The invariants I1 to I4 of 10_state.md R25; I1 is carried by the type of BIT_CNT. -/
def State.Legal (s : State) : Prop :=
  s.ShiftClear ∧
  (s.cfg.requireLeader = true → s.inFrame = false → s.bitCnt = 0#5 ∧ s.shift = 0#32) ∧
  (s.hasLast = false → s.FrameIdle)
  deriving Decidable

/-- A step that starts from a state breaking an invariant faults (60_exceptions.md R142); any other takes effect. -/
def fromLegal (s : State) (effect : State → State) : Host.Outcome State Fault Refusal :=
  if ¬ s.Legal then .fault (.unreachableState s)
  else .next (effect s.strobeLow)

/-- One stimulus as one atomic step (41_stimulus_operations.md R99, 20_memory.md R48): it is refused, in the order of
60_exceptions.md R147, or it faults (R142), or it takes effect with the strobe low unless the effect emits. -/
def runStimulus (i : Instr) (s : State) (effect : State → State) : Host.Outcome State Fault Refusal :=
  if ¬ s.cfg.WellFormed then .refused (.badConfig s.cfg)
  else if ¬ i.WellFormed s.cfg then .refused (.tickRange (.record i))
  else fromLegal s effect

/-- A step with no stimulus waiting: the block holds its registers, and the strobe is low (60_exceptions.md R152,
70_reset_and_hazards.md R161; assumption 8). -/
def idle (s : State) : Host.Outcome State Fault Refusal :=
  if ¬ s.cfg.WellFormed then .refused (.badConfig s.cfg) else fromLegal s id

/-! ### The input port -/

/-- The refusal that records a rejected word (60_exceptions.md R141, R143). -/
def refusalOf (c : Config) (w : Word) : Reject → Refusal
  | .badConfig => .badConfig c
  | .wordTooNarrow => .wordTooNarrow w
  | .reservedOp => .reservedOp w
  | .reservedBits => .reservedBits w
  | .tickRange => .tickRange (.word w)

/-- The code of a refusal (60_exceptions.md R141); the model's own `0` stands for a stimulus it has no meaning for. -/
def Refusal.code : Refusal → Nat
  | .reservedOp _ => 1
  | .reservedBits _ => 2
  | .tickRange _ => 3
  | .wordTooNarrow _ => 4
  | .badConfig _ => 5
  | _ => 0

/-- The code of a fault (60_exceptions.md R142). -/
def Fault.code : Fault → Nat
  | .unreachableState _ => 16

/-- The stimulus that an item at the input port stands for, or its refusal. -/
def Input.read (c : Config) : Input → Except Refusal Instr
  | .record i => .ok i
  | .word w =>
    match decode c w with
    | .ok i => .ok i
    | .error r => .error (refusalOf c w r)

/-- The next stimulus at the input port: none where nothing waits. -/
def State.nextStimulus (s : State) : Option (Except Refusal Instr) :=
  s.input.head?.map (Input.read s.cfg)

/-- The state once the next stimulus has been taken off the input port. -/
def State.takeStimulus (s : State) : State := { s with input := s.input.tail }

/-- What the environment's hardware presents in one cycle: the reset line, the timeout strobe, and the edge, falling
(`false`) or rising (`true`), on the one input line (60_exceptions.md R144, R146). -/
structure Cycle where
  reset : Bool
  timeout : Bool
  edge : Option (Bool × Tick)
  deriving DecidableEq, Repr

/-- The stimuli of one cycle in the order in which they are taken: RESET, TIMEOUT, EDGE (60_exceptions.md R146). -/
def Cycle.stimuli (k : Cycle) : List Instr :=
  (if k.reset then [Instr.reset] else []) ++
  (if k.timeout then [Instr.timeout] else []) ++
  (match k.edge with
    | none => []
    | some (false, t) => [.edgeF t]
    | some (true, t) => [.edgeR t])

/-- The environment delivers stimuli, in the order given, behind those already waiting (20_memory.md R51). -/
def State.deliver (is : List Instr) (s : State) : State := { s with input := s.input ++ is.map .record }

/-- The environment presents one cycle (60_exceptions.md R146). -/
def State.present (k : Cycle) (s : State) : State := s.deliver k.stimuli

end Sys2Proof.Machine
end

