-- ==== Sys2Proof/Machine/Edge.lean ====
section
/-!
DEFINITION. The edge stimuli EDGE.F and EDGE.R (41_stimulus_operations.md R100 to R103).
-/

namespace Sys2Proof.Machine

/-- The effect of a falling edge at `t`: the first one only sets the reference (R101); every other one moves the reference
(R102) and does what the class of its delta does (R100). -/
def State.fallingEdge (t : Tick) (s : State) : State :=
  if s.hasLast then
    { s with tLast := t }.classAction (classify s.cfg (delta s.cfg s.tLast t))
  else { s with tLast := t, hasLast := true }

/-- `EDGE.F t` (41_stimulus_operations.md R100). -/
def execEdgeF (t : Tick) (s : State) : Host.Outcome State Fault Refusal :=
  runStimulus (.edgeF t) s (State.fallingEdge t)

/-- `EDGE.R t`: no register is written and nothing is emitted (41_stimulus_operations.md R103). -/
def execEdgeR (t : Tick) (s : State) : Host.Outcome State Fault Refusal :=
  runStimulus (.edgeR t) s id

end Sys2Proof.Machine
end

