-- ==== Sys2Proof/Machine/Strobe.lean ====
section
/-!
DEFINITION. The stimuli without an operand, TIMEOUT and RESET (41_stimulus_operations.md R104 to R107).
-/

namespace Sys2Proof.Machine

/-- The effect of TIMEOUT: the frame is reset and the reference is forgotten; T_LAST stays (R104). -/
def State.timeoutEffect (s : State) : State := { s.frameReset with hasLast := false }

/-- The effect of RESET: all five registers take their reset values (R106). -/
def State.resetEffect (s : State) : State := { s.frameReset with hasLast := false, tLast := 0#32 }

/-- `TIMEOUT` (41_stimulus_operations.md R104). -/
def execTimeout (s : State) : Host.Outcome State Fault Refusal :=
  runStimulus .timeout s State.timeoutEffect

/-- `RESET` (41_stimulus_operations.md R106). -/
def execReset (s : State) : Host.Outcome State Fault Refusal :=
  runStimulus .reset s State.resetEffect

end Sys2Proof.Machine
end

