-- ==== Sys2Proof/Machine/Dispatch.lean ====
section
/-!
DEFINITION. `exec`: one arm per stimulus (41_stimulus_operations.md R99).
-/

namespace Sys2Proof.Machine

def exec (i : Instr) (s : State) : Host.Outcome State Fault Refusal :=
  match i with
  | .edgeF t => Sys2Proof.Machine.execEdgeF t s
  | .edgeR t => Sys2Proof.Machine.execEdgeR t s
  | .timeout => Sys2Proof.Machine.execTimeout s
  | .reset => Sys2Proof.Machine.execReset s

end Sys2Proof.Machine
end

