-- ==== Sys2Proof/Machine/Step.lean ====
section
/-!
DEFINITION. One step of the machine: the next stimulus at the input port is taken and executed.
-/

namespace Sys2Proof.Machine

/-- One step (41_stimulus_operations.md R99): with nothing waiting the block holds its state (60_exceptions.md R152); a word
with no meaning is refused before any state changes (30_encoding.md R67); any other stimulus is taken off the port and
executed. -/
def step (s : State) : Host.Outcome State Fault Refusal :=
  match s.nextStimulus with
  | none => idle s
  | some (.error r) => .refused r
  | some (.ok i) => exec i s.takeStimulus

/-- `s` with the word of the low `nbits` bits of `w` as the next stimulus at the input port (assumption 2). -/
def State.withFetchWord (s : State) (nbits w : Nat) : State :=
  { s with input := .word (wordOfBits nbits w) :: s.input }

end Sys2Proof.Machine
end

