-- ==== Sys2Proof/Machine/Assembler.lean ====
section
/-!
DEFINITION. The assembler notation of 30_encoding.md R70 and R71 and the nominal intervals of 00_scope.md R9. No rule of the
machine reads any of it: it turns a listing into the stimuli that the environment delivers.
-/

namespace Sys2Proof.Machine

/-! ### Nominal intervals (00_scope.md R9), in microseconds and in ticks -/

/-- A nominal time in ticks of the configured rate; a fraction of a tick is dropped (assumption 13). -/
def nominalTicks (c : Config) (microseconds : Nat) : Nat := microseconds * c.tickHz / 1000000

/-- `N_ZERO`, 1.125 ms. -/
def nominalZero (c : Config) : Nat := nominalTicks c 1125

/-- `N_ONE`, 2.25 ms. -/
def nominalOne (c : Config) : Nat := nominalTicks c 2250

/-- `N_LEAD`, 13.5 ms. -/
def nominalLead (c : Config) : Nat := nominalTicks c 13500

/-- `N_REPEAT`, 11.25 ms. -/
def nominalRepeat (c : Config) : Nat := nominalTicks c 11250

/-! ### Expansion -/

/-- A line of a listing (30_encoding.md R70, R71). -/
inductive AsmLine where
  /-- `.TICK v` -/
  | setTick (v : Tick)
  /-- `EDGE.F t`, `EDGE.R t`, `TIMEOUT` or `RESET`, one stimulus as it stands. -/
  | plain (i : Instr)
  /-- `GAP d` -/
  | gap (d : Nat)
  /-- `BIT0` -/
  | bit0
  /-- `BIT1` -/
  | bit1
  /-- `LEAD` -/
  | lead
  /-- `REPEAT` -/
  | repeatCode
  /-- `BYTE v` -/
  | byte (v : Byte)
  /-- `FRAME a, c` -/
  | frame (a c : Byte)
  /-- `WORD w` -/
  | word (w : Word)
  deriving DecidableEq, Repr

/-- The bits of a value, the most significant first (30_encoding.md R71: from the top bit down to 0). -/
def bitsMsbFirst {n : Nat} (v : BitVec n) : List Bool := (List.range n).map v.getMsbD

/-- The nominal interval of a bit. -/
def bitGap (c : Config) (b : Bool) : Nat := if b then nominalOne c else nominalZero c

/-- The intervals that a pseudo-instruction stands for, in order (30_encoding.md R71). -/
def AsmLine.gaps (c : Config) : AsmLine → List Nat
  | .setTick _ => []
  | .plain _ => []
  | .gap d => [d]
  | .bit0 => [nominalZero c]
  | .bit1 => [nominalOne c]
  | .lead => [nominalLead c]
  | .repeatCode => [nominalRepeat c]
  | .byte v => (bitsMsbFirst v).map (bitGap c)
  | .frame a k => nominalLead c ::
      ((bitsMsbFirst a ++ bitsMsbFirst (~~~a) ++ bitsMsbFirst k ++ bitsMsbFirst (~~~k)).map (bitGap c))
  | .word w => (bitsMsbFirst w).map (bitGap c)

/-- The tick `d` after the tick `t`, modulo 2^W (30_encoding.md R71). -/
def tickAfter (c : Config) (t : Tick) (d : Nat) : Tick := tickAt c (t.toNat + d)

/-- Falling edges, each the next interval after the one before it, the first after `t`. -/
def edgesAfter (c : Config) : Tick → List Nat → List Instr
  | _, [] => []
  | t, d :: ds => .edgeF (tickAfter c t d) :: edgesAfter c (tickAfter c t d) ds

/-- The assembler's variable after a line, `t` being its value before it: only EDGE.F and `.TICK` move it. -/
def AsmLine.tickAfterLine (c : Config) (t : Tick) (a : AsmLine) : Tick :=
  match a with
  | .setTick v => v
  | .plain (.edgeF u) => u
  | _ => (a.gaps c).foldl (tickAfter c) t

/-- The stimuli of a line, the assembler's variable being `t` before it (30_encoding.md R71). -/
def AsmLine.expand (c : Config) (t : Tick) (a : AsmLine) : List Instr :=
  match a with
  | .plain i => [i]
  | _ => edgesAfter c t (a.gaps c)

/-- The stimuli of a listing; the assembler's variable is `t` before it. -/
def assembleFrom (c : Config) : Tick → List AsmLine → List Instr
  | _, [] => []
  | t, a :: as => a.expand c t ++ assembleFrom c (a.tickAfterLine c t) as

/-- The stimuli of a listing; the assembler's variable starts at 0 (30_encoding.md R71). -/
def assemble (c : Config) (as : List AsmLine) : List Instr := assembleFrom c 0#32 as

/-! ### Text -/

/-- The lowest `n` hexadecimal digits of `v`, most significant first, in capitals (00_scope.md R10). -/
def hexDigits : Nat → Nat → List Char
  | 0, _ => []
  | n + 1, v => hexDigits n (v / 16) ++ ["0123456789ABCDEF".toList.getD (v % 16) '0']

/-- A stimulus as a listing writes it (30_encoding.md R70). -/
def asmText : Instr → String
  | .edgeF t => "EDGE.F " ++ Nat.repr t.toNat
  | .edgeR t => "EDGE.R " ++ Nat.repr t.toNat
  | .timeout => "TIMEOUT"
  | .reset => "RESET"

/-- An event as a test vector writes it (30_encoding.md R63). -/
def eventText (e : Event) : String :=
  "EVT frame=0x" ++ String.ofList (hexDigits 8 e.frame.toNat) ++ " cmd=0x" ++ String.ofList (hexDigits 2 e.cmd.toNat)
    ++ " valid=" ++ (if e.valid then "1" else "0")

end Sys2Proof.Machine
end

