-- ==== Sys2Proof/Safety.lean ====
section
/-!
DEFINITION. What a safe state, a safe input stream and a safe run are, in the terms that claims use; and what the spec asks
of the environment (70_reset_and_hazards.md).
-/

namespace Sys2Proof

/-- A falling edge. -/
def Instr.isFallingEdge : Instr → Bool
  | .edgeF _ => true
  | .edgeR _ => false
  | .timeout => false
  | .reset => false

/-- The delta lies in the window of the bit `b` (40_interval_classifier.md R85). -/
abbrev Config.InBitWindow (c : Config) (b : Bool) (d : Nat) : Prop :=
  if b then c.oneMin ≤ d ∧ d ≤ c.oneMax else c.zeroMin ≤ d ∧ d ≤ c.zeroMax

/-- The delta lies in the LEADER window (40_interval_classifier.md R84). -/
abbrev Config.InLeaderWindow (c : Config) (d : Nat) : Prop := c.leadMin ≤ d ∧ d ≤ c.leadMax

/-- The delta is below `P_ABORT` and in no window (40_interval_classifier.md R86). -/
abbrev Config.InNoWindow (c : Config) (d : Nat) : Prop :=
  d < c.abort ∧ ¬ c.InLeaderWindow d ∧ ∀ b : Bool, ¬ c.InBitWindow b d

/-- The environment must have raised TIMEOUT by the time the line has been idle this long, and not before: at least
`P_ABORT` ticks and fewer than 2^W (70_reset_and_hazards.md R165). -/
abbrev Config.TimeoutDue (c : Config) (idleTicks : Nat) : Prop := c.abort ≤ idleTicks ∧ idleTicks < c.modulus

/-- The environment's service time for one stimulus, at most `P_ZERO_MIN` ticks (70_reset_and_hazards.md R166). -/
def Config.serviceBound (c : Config) : Nat := c.zeroMin

end Sys2Proof

namespace Sys2Proof.Machine

/-- T_LAST holds a W-bit value (10_state.md R20). -/
abbrev State.TickFits (s : State) : Prop := s.tLast.toNat < s.cfg.modulus

/-- The fields of an event are those of its frame word (30_encoding.md R63). -/
abbrev Event.Coherent (e : Event) : Prop := e = frameEvent e.frame

/-- What holds after every stimulus of a run that starts from reset under a well-formed configuration: the invariants of
10_state.md R25, the width of T_LAST, and the coherence of every event. -/
def State.Inv (s : State) : Prop :=
  s.cfg.WellFormed ∧ s.TickFits ∧ s.Legal ∧ (∀ e ∈ s.trace, e.Coherent) ∧ (∀ e ∈ s.evt, e.Coherent)
  deriving Decidable

/-- When a stimulus executes normally (41_stimulus_operations.md R99): a well-formed configuration, a well-formed stimulus,
and a state that breaks no invariant. -/
def State.Ready (s : State) (i : Instr) : Prop :=
  s.cfg.WellFormed ∧ i.WellFormed s.cfg ∧ s.Legal
  deriving Decidable

/-- An item at the input port that has a meaning: it is read as a well-formed stimulus. -/
def Input.accepted (c : Config) (x : Input) : Bool :=
  match x.read c with
  | .ok i => decide (i.WellFormed c)
  | .error _ => false

/-- Every stimulus waiting at the port has a meaning. -/
abbrev State.InputAccepted (s : State) : Prop := ∀ x ∈ s.input, x.accepted s.cfg = true

/-- A safe run: no step of it is refused and none faults (60_exceptions.md R140). -/
def SafeRun (s : State) : Prop := ∀ k, ∃ t, Host.Core.run Sys2Proof.core k s = .next t

/-- Two states that no output can tell apart: they agree but for T_LAST, which counts only while HAS_LAST = 1
(10_state.md R22, 41_stimulus_operations.md R107). -/
def State.SameObservable (s t : State) : Prop :=
  { s with tLast := 0#32 } = { t with tLast := 0#32 } ∧ (s.hasLast = true → s.tLast = t.tLast)
  deriving Decidable

/-- Stimuli run one after another, stopping at the first that is refused or faults. -/
def execAll : List Instr → State → Host.Outcome State Fault Refusal
  | [], s => .next s
  | i :: is, s =>
    match exec i s with
    | .next s' => execAll is s'
    | .fault r => .fault r
    | .refused r => .refused r

/-- How many falling edges a stream holds. -/
def fallingEdges (is : List Instr) : Nat := is.countP Instr.isFallingEdge

/-- A ZERO or ONE delta is accepted in this state (00_scope.md R8, 42_frame_assembly.md R123). -/
abbrev State.BitsCount (s : State) : Prop := s.cfg.requireLeader = false ∨ s.inFrame = true

/-- The intervals `start` bring the block from `s` to the first bit of a frame: a LEADER interval, or none at all where bits
count already and none is held (42_frame_assembly.md R121, R123). -/
def State.StartsFrame (s : State) (start : List Nat) : Prop :=
  (∃ lead, start = [lead] ∧ s.cfg.InLeaderWindow lead) ∨ (start = [] ∧ s.BitsCount ∧ s.bitCnt = 0#5)

end Sys2Proof.Machine
end

