-- ==== Sys2Proof/Certificates/Slice0/Obligations.lean ====
section
/-!
DEFINITION. What is stated about the machine. Every statement is over all configurations (the configuration is a field of
the state that no step changes, assumption 1) unless it names RC1. `s.Ready i` is the condition under which a stimulus
executes normally (41_stimulus_operations.md R99).
-/

open Sys2Proof Sys2Proof.Machine

/-! ### Encoding -/

/-- The worked words of 30_encoding.md section 4 and the vectors W7 and W13 to W16 of 95_test_vectors.md read as they say. -/
def Obligations.SpecWordsReadAsWritten : Prop :=
  decode Config.rc1 0x000003E8#32 = .ok (.edgeF 1000#32) ∧
  decode Config.rc1 0x00003A98#32 = .ok (.edgeF 15000#32) ∧
  decode Config.rc1 0x0000FFFF#32 = .ok (.edgeF 65535#32) ∧
  decode Config.rc1 0x200003E8#32 = .ok (.edgeR 1000#32) ∧
  decode Config.rc1 0x40000000#32 = .ok .timeout ∧
  decode Config.rc1 0x80000000#32 = .ok .reset ∧
  decode Config.rc1 0x00010000#32 = .error .tickRange ∧
  decode Config.rc1 0x01000000#32 = .error .reservedBits ∧
  decode Config.rc1 0x40000001#32 = .error .reservedBits ∧
  decode Config.rc1 0xC0000000#32 = .error .reservedOp ∧
  decode { Config.rc1 with tickWidth := 24 } 0x00FFFFFF#32 = .ok (.edgeF 16777215#32) ∧
  decode { Config.rc1 with oneMin := 1500 } 0x000003E8#32 = .error .badConfig ∧
  decode { Config.rc1 with abort := 65536 } 0x000003E8#32 = .error .badConfig ∧
  decode { Config.rc1 with zeroMin := 0 } 0x000003E8#32 = .error .badConfig ∧
  decode { Config.rc1 with tickWidth := 32 } 0x000003E8#32 = .error .wordTooNarrow

/-- Decode and encode agree: the word of a well-formed stimulus decodes to that stimulus, with every tick, in every
configuration that the word form serves (30_encoding.md R65, R66). -/
def Obligations.DecodeOfEncodeIsTheStimulus : Prop :=
  ∀ (c : Config) (i : Instr), c.WellFormed → c.FitsWord → i.WellFormed c → decode c (encode i) = .ok i

/-- The other way: a word that decodes is the word of the stimulus it decodes to, which is well-formed; so no two words
mean one stimulus (30_encoding.md R65, R67). -/
def Obligations.EncodeOfDecodeIsTheWord : Prop :=
  ∀ (c : Config) (w : Word) (i : Instr), decode c w = .ok i → encode i = w ∧ i.WellFormed c

/-- The opcode map of 30_encoding.md R66: which words mean which stimulus, by match and mask; a word that matches no row
is refused. The tick is bits 23:0, and the range check is that of R67. -/
def Obligations.OpcodeMapByMatchAndMask : Prop :=
  ∀ (c : Config) (w : Word), c.WellFormed → c.FitsWord →
    (∀ t, decode c w = .ok (.edgeF t) ↔
      w &&& 0xFF000000#32 = 0x00000000#32 ∧ t.toNat = w.toNat % 2 ^ 24 ∧ t.toNat < 2 ^ c.tickWidth) ∧
    (∀ t, decode c w = .ok (.edgeR t) ↔
      w &&& 0xFF000000#32 = 0x20000000#32 ∧ t.toNat = w.toNat % 2 ^ 24 ∧ t.toNat < 2 ^ c.tickWidth) ∧
    (decode c w = .ok .timeout ↔ w &&& 0xFFFFFFFF#32 = 0x40000000#32) ∧
    (decode c w = .ok .reset ↔ w &&& 0xFFFFFFFF#32 = 0x80000000#32) ∧
    (w &&& 0xFF000000#32 ≠ 0x00000000#32 → w &&& 0xFF000000#32 ≠ 0x20000000#32 →
      w ≠ 0x40000000#32 → w ≠ 0x80000000#32 → ∃ r, decode c w = .error r)

/-! ### The step and the refusals -/

/-- A step runs the decoded stimulus: the word, or the record, at the head of the input port is taken off the port and
executed; nothing else is added around `exec`. -/
def Obligations.StepRunsTheNextStimulus : Prop :=
  (∀ (s : State) (w : Word) (rest : List Input) (i : Instr),
    s.input = .word w :: rest → decode s.cfg w = .ok i → step s = exec i { s with input := rest }) ∧
  (∀ (s : State) (i : Instr) (rest : List Input),
    s.input = .record i :: rest → step s = exec i { s with input := rest })

/-- The tests of a stimulus, in the order of 60_exceptions.md R147 and, for a word, with the conditions of 30_encoding.md
R67 written as arithmetic on the word: the first that holds is the refusal of the step, whatever the registers hold, and a
stimulus that passes all of them is executed. A record can only have a bad configuration or a tick out of range; that the
latter is refused as TICK_RANGE is the model's reading (assumption 7), since R147 and R67 give that reason for words. -/
def Obligations.FirstReasonThatHoldsIsReported : Prop :=
  (∀ (s : State) (w : Word) (rest : List Input), s.input = .word w :: rest →
    if ¬ s.cfg.WellFormed then step s = .refused (.badConfig s.cfg)
    else if 24 < s.cfg.tickWidth then step s = .refused (.wordTooNarrow w)
    else if 3 * 2 ^ 30 ≤ w.toNat then step s = .refused (.reservedOp w)
    else if (w.toNat < 2 ^ 30 ∧ w.toNat / 2 ^ 24 % 2 ^ 5 ≠ 0) ∨ (2 ^ 30 ≤ w.toNat ∧ w.toNat % 2 ^ 30 ≠ 0) then
      step s = .refused (.reservedBits w)
    else if w.toNat < 2 ^ 30 ∧ 2 ^ s.cfg.tickWidth ≤ w.toNat % 2 ^ 24 then step s = .refused (.tickRange (.word w))
    else ∃ i, i.WellFormed s.cfg ∧ step s = exec i { s with input := rest }) ∧
  (∀ (s : State) (i : Instr) (rest : List Input), s.input = .record i :: rest →
    if ¬ s.cfg.WellFormed then step s = .refused (.badConfig s.cfg)
    else if 2 ^ s.cfg.tickWidth ≤ i.tickValue then step s = .refused (.tickRange (.record i))
    else i.WellFormed s.cfg ∧ step s = exec i { s with input := rest })

/-- What a refused step answers (60_exceptions.md R141, R143): the reason with its code, and the offending word or record,
which stands at the head of the input port, or the configuration; and no other refusal. That a record can be refused is
assumption 7. A refusal is kept for the whole run: every longer run ends in it (the outcome is the mark: assumption 6). -/
def Obligations.RefusalNamesItsReasonAndIsKept : Prop :=
  ∀ (s : State) (r : Refusal), step s = .refused r →
    ((¬ s.cfg.WellFormed ∧ r = .badConfig s.cfg ∧ r.code = 5) ∨
      (s.cfg.WellFormed ∧ ∃ (w : Word) (rest : List Input), s.input = .word w :: rest ∧
        ((r = .reservedOp w ∧ r.code = 1) ∨ (r = .reservedBits w ∧ r.code = 2) ∨
          (r = .tickRange (.word w) ∧ r.code = 3) ∨ (r = .wordTooNarrow w ∧ r.code = 4))) ∨
      (s.cfg.WellFormed ∧ ∃ (i : Instr) (rest : List Input), s.input = .record i :: rest ∧
        2 ^ s.cfg.tickWidth ≤ i.tickValue ∧ r = .tickRange (.record i) ∧ r.code = 3)) ∧
    ∀ (s₀ : State) (k n : Nat), Host.Core.run core k s₀ = .next s → Host.Core.run core (k + 1 + n) s₀ = .refused r

/-- The conditions of 00_scope.md R7, written out, decide: where one fails, no stimulus runs and every step is refused as
BAD_CONFIG; where all hold, nothing is refused as BAD_CONFIG. -/
def Obligations.OnlyAWellFormedConfigurationRuns : Prop :=
  ∀ s : State,
    if 1 ≤ s.cfg.tickWidth ∧ s.cfg.tickWidth ≤ 32 ∧ 0 < s.cfg.zeroMin ∧ s.cfg.zeroMin ≤ s.cfg.zeroMax ∧
        s.cfg.zeroMax < s.cfg.oneMin ∧ s.cfg.oneMin ≤ s.cfg.oneMax ∧ s.cfg.oneMax < s.cfg.leadMin ∧
        s.cfg.leadMin ≤ s.cfg.leadMax ∧ s.cfg.leadMax < s.cfg.abort ∧ s.cfg.abort ≤ 2 ^ s.cfg.tickWidth - 1 then
      (∀ (i : Instr) (c : Config), exec i s ≠ .refused (.badConfig c)) ∧
      ∀ c : Config, step s ≠ .refused (.badConfig c)
    else (∀ i : Instr, exec i s = .refused (.badConfig s.cfg)) ∧ step s = .refused (.badConfig s.cfg)

/-- A record whose tick is outside 0 .. 2^W - 1 is refused as TICK_RANGE (assumption 7: the model's reading of
20_memory.md R42 with 60_exceptions.md R141). -/
def Obligations.RecordTickOutOfRangeIsRefused : Prop :=
  ∀ (s : State) (t : Tick), s.cfg.WellFormed → 2 ^ s.cfg.tickWidth ≤ t.toNat →
    exec (.edgeF t) s = .refused (.tickRange (.record (.edgeF t))) ∧
    exec (.edgeR t) s = .refused (.tickRange (.record (.edgeR t)))

/-- With nothing waiting at the input port, the block holds its registers and the strobe is low (assumption 8, after
60_exceptions.md R152 and 70_reset_and_hazards.md R161). -/
def Obligations.IdleStepHoldsTheState : Prop :=
  ∀ s : State, s.input = [] → s.cfg.WellFormed → s.Legal → step s = .next { s with evt := none }

/-- The word form and the record form of a stimulus lead to the same step (20_memory.md R42, 30_encoding.md R65). -/
def Obligations.WordFormAndRecordFormAgree : Prop :=
  ∀ (s : State) (i : Instr) (rest : List Input), s.cfg.WellFormed → s.cfg.FitsWord → i.WellFormed s.cfg →
    step { s with input := .word (encode i) :: rest } = step { s with input := .record i :: rest }

/-! ### EDGE.F -/

/-- The delta is the modular difference: it is below 2^W, and the tick is `T_LAST` plus the delta modulo 2^W
(40_interval_classifier.md R80). -/
def Obligations.DeltaIsModularDifference : Prop :=
  ∀ (c : Config) (tLast t : Tick), tLast.toNat < 2 ^ c.tickWidth → t.toNat < 2 ^ c.tickWidth →
    delta c tLast t < 2 ^ c.tickWidth ∧ (tLast.toNat + delta c tLast t) % 2 ^ c.tickWidth = t.toNat

/-- The tests of CLASSIFY in the order of 40_interval_classifier.md R81, windows inclusive: the first that holds decides. -/
def Obligations.ClassifierTestsInOrder : Prop :=
  ∀ (c : Config) (d : Nat),
    if c.abort ≤ d then classify c d = .abort
    else if c.leadMin ≤ d ∧ d ≤ c.leadMax then classify c d = .leader
    else if c.oneMin ≤ d ∧ d ≤ c.oneMax then classify c d = .one
    else if c.zeroMin ≤ d ∧ d ≤ c.zeroMax then classify c d = .zero
    else classify c d = .noise

/-- The five classes partition 0 .. 2^W - 1 into the ranges of 40_interval_classifier.md section 2, the table that the
spec derives from R81 and 00_scope.md R7. -/
def Obligations.ClassesPartitionTheDeltas : Prop :=
  ∀ (c : Config) (d : Nat), c.WellFormed → d < 2 ^ c.tickWidth →
    (classify c d = .zero ↔ c.zeroMin ≤ d ∧ d ≤ c.zeroMax) ∧
    (classify c d = .one ↔ c.oneMin ≤ d ∧ d ≤ c.oneMax) ∧
    (classify c d = .leader ↔ c.leadMin ≤ d ∧ d ≤ c.leadMax) ∧
    (classify c d = .abort ↔ c.abort ≤ d) ∧
    (classify c d = .noise ↔ d < c.zeroMin ∨ (c.zeroMax < d ∧ d < c.oneMin) ∨
      (c.oneMax < d ∧ d < c.leadMin) ∨ (c.leadMax < d ∧ d < c.abort))

/-- The partition under RC1 and the classes of the nominal intervals, as 40_interval_classifier.md section 3 lists them. -/
def Obligations.ReferenceConfigurationClasses : Prop :=
  (∀ d, d < 65536 → classify Config.rc1 d =
    if d ≤ 799 then .noise else if d ≤ 1500 then .zero else if d ≤ 1799 then .noise else if d ≤ 2700 then .one
    else if d ≤ 12499 then .noise else if d ≤ 14500 then .leader else if d ≤ 14999 then .noise else .abort) ∧
  classify Config.rc1 (nominalZero Config.rc1) = .zero ∧ classify Config.rc1 (nominalOne Config.rc1) = .one ∧
  classify Config.rc1 (nominalLead Config.rc1) = .leader ∧ classify Config.rc1 (nominalRepeat Config.rc1) = .noise

/-- The first edge (41_stimulus_operations.md R101): EDGE.F with HAS_LAST = 0 writes T_LAST and HAS_LAST and nothing else,
and emits nothing; HAS_LAST = 0 holds after RESET and after TIMEOUT. -/
def Obligations.FirstEdgeOnlySetsTheReference : Prop :=
  (∀ (s : State) (t : Tick), s.Ready (.edgeF t) → s.hasLast = false →
    exec (.edgeF t) s = .next { s with tLast := t, hasLast := true, evt := none }) ∧
  (∀ s : State, s.Ready .reset → ∃ s', exec .reset s = .next s' ∧ s'.hasLast = false) ∧
  (∀ s : State, s.Ready .timeout → ∃ s', exec .timeout s = .next s' ∧ s'.hasLast = false)

/-- The ABORT action (42_frame_assembly.md R122): FrameReset; T_LAST moves and HAS_LAST stays 1; with no frame open and
no bit held, nothing but T_LAST changes; nothing is emitted. (With `P_REQUIRE_LEADER` false bits can be held while IN_FRAME
is 0, and then the rule's pseudocode discards them: assumption 15.) -/
def Obligations.AbortResetsTheFrame : Prop :=
  ∀ (s : State) (t : Tick), s.Ready (.edgeF t) → s.hasLast = true → s.cfg.abort ≤ delta s.cfg s.tLast t →
    exec (.edgeF t) s =
      .next { s with tLast := t, hasLast := true, bitCnt := 0#5, shift := 0x00000000#32, inFrame := false, evt := none } ∧
    (s.FrameIdle → exec (.edgeF t) s = .next { s with tLast := t, evt := none })

/-- The LEADER action (42_frame_assembly.md R121), whatever the frame held and whatever `P_REQUIRE_LEADER` is: a new, empty
frame is open and nothing is emitted. -/
def Obligations.LeaderOpensAnEmptyFrame : Prop :=
  ∀ (s : State) (t : Tick), s.Ready (.edgeF t) → s.hasLast = true → s.cfg.InLeaderWindow (delta s.cfg s.tLast t) →
    exec (.edgeF t) s =
      .next { s with tLast := t, bitCnt := 0#5, shift := 0x00000000#32, inFrame := true, evt := none }

/-- The NOISE action (42_frame_assembly.md R124): a delta in no window and below P_ABORT changes nothing but T_LAST. -/
def Obligations.NoiseMovesOnlyTheReference : Prop :=
  ∀ (s : State) (t : Tick), s.Ready (.edgeF t) → s.hasLast = true → s.cfg.InNoWindow (delta s.cfg s.tLast t) →
    exec (.edgeF t) s = .next { s with tLast := t, evt := none }

/-- A ZERO or ONE delta that is not accepted (42_frame_assembly.md R126) changes nothing but T_LAST. -/
def Obligations.BitBeforeALeaderIsIgnored : Prop :=
  ∀ (s : State) (t : Tick) (b : Bool), s.Ready (.edgeF t) → s.hasLast = true →
    s.cfg.InBitWindow b (delta s.cfg s.tLast t) → s.cfg.requireLeader = true → s.inFrame = false →
    exec (.edgeF t) s = .next { s with tLast := t, evt := none }

/-- A ZERO or ONE delta that is accepted (42_frame_assembly.md R123): below 31 bits, bit 31 - n takes the bit (it is 0
beforehand, so this is an OR) and BIT_CNT counts up; the 32nd bit emits the event of the completed word and resets the
frame. -/
def Obligations.AcceptedBitEntersTheFrame : Prop :=
  ∀ (s : State) (t : Tick) (b : Bool), s.Ready (.edgeF t) → s.hasLast = true →
    s.cfg.InBitWindow b (delta s.cfg s.tLast t) → s.BitsCount →
    (s.bitCnt.toNat < 31 → exec (.edgeF t) s =
      .next { s with
        tLast := t
        shift := s.shift ||| (if b then 1#32 <<< (31 - s.bitCnt.toNat) else 0#32)
        bitCnt := BitVec.ofNat 5 (s.bitCnt.toNat + 1)
        evt := none }) ∧
    (s.bitCnt.toNat = 31 → ∀ f : Word, f = (s.shift ||| if b then 1#32 else 0#32) → exec (.edgeF t) s =
      .next { s with
        tLast := t
        bitCnt := 0#5
        shift := 0x00000000#32
        inFrame := false
        evt := some ⟨f, f.extractLsb' 8 8, valid f⟩
        trace := s.trace ++ [⟨f, f.extractLsb' 8 8, valid f⟩] })

/-- The 32nd accepted bit (42_frame_assembly.md R127): one event during that same EDGE.F, then the idle frame with
HAS_LAST = 1 and T_LAST the completing tick; where a leader is required, the next bit-length delta is ignored until a
LEADER comes. -/
def Obligations.CompletionLeavesAnIdleFrame : Prop :=
  ∀ (s : State) (t : Tick) (b : Bool), s.Ready (.edgeF t) → s.hasLast = true →
    s.cfg.InBitWindow b (delta s.cfg s.tLast t) → s.BitsCount → s.bitCnt.toNat = 31 →
    ∃ s' e, exec (.edgeF t) s = .next s' ∧ s'.evt = some e ∧ s'.trace = s.trace ++ [e] ∧
      s'.inFrame = false ∧ s'.bitCnt = 0#5 ∧ s'.shift = 0x00000000#32 ∧ s'.hasLast = true ∧ s'.tLast = t ∧
      (s.cfg.requireLeader = true → ∀ (u : Tick) (b' : Bool), u.toNat < 2 ^ s.cfg.tickWidth →
        s.cfg.InBitWindow b' (delta s.cfg t u) → exec (.edgeF u) s' = .next { s' with tLast := u, evt := none })

/-- When an event is emitted and what it holds (42_frame_assembly.md R128): exactly when the stimulus is the EDGE.F that
brings the 32nd accepted bit, and then one event, of the completed word; in every other step the strobe is low and the
trace is unchanged. -/
def Obligations.EventExactlyOnTheThirtySecondBit : Prop :=
  ∀ (s s' : State) (i : Instr), exec i s = .next s' →
    (s'.evt = none ∧ s'.trace = s.trace ∧
      ∀ t b, i = .edgeF t → s.hasLast = true → s.cfg.InBitWindow b (delta s.cfg s.tLast t) → s.BitsCount →
        s.bitCnt.toNat ≠ 31) ∨
    (∃ t b f, i = .edgeF t ∧ s.hasLast = true ∧ s.cfg.InBitWindow b (delta s.cfg s.tLast t) ∧ s.BitsCount ∧
      s.bitCnt.toNat = 31 ∧ f = (s.shift ||| if b then 1#32 else 0#32) ∧
      s'.evt = some ⟨f, f.extractLsb' 8 8, valid f⟩ ∧ s'.trace = s.trace ++ [⟨f, f.extractLsb' 8 8, valid f⟩])

/-- The validity check (42_frame_assembly.md R125): no bit common to a field and its inverted field, in both halves; it is
weaker than a complement check, since ADDR = NADDR = 0x00 passes; a frame that fails it is delivered all the same, marked
invalid. -/
def Obligations.ValidityIsTheWeakCheck : Prop :=
  (∀ f : Word, valid f = true ↔
    (f.extractLsb' 24 8 &&& f.extractLsb' 16 8 = 0x00#8 ∧ f.extractLsb' 8 8 &&& f.extractLsb' 0 8 = 0x00#8)) ∧
  (∀ k : Byte, valid (frameOf 0x00#8 0x00#8 k (~~~k)) = true) ∧
  (∀ (s : State) (t : Tick) (b : Bool) (f : Word), s.Ready (.edgeF t) → s.hasLast = true →
    s.cfg.InBitWindow b (delta s.cfg s.tLast t) → s.BitsCount → s.bitCnt.toNat = 31 →
    f = (s.shift ||| if b then 1#32 else 0#32) → valid f = false →
    ∃ s', exec (.edgeF t) s = .next s' ∧ s'.evt = some ⟨f, f.extractLsb' 8 8, false⟩)

/-- The check is the source's formula `x & ~y == x` in both halves, and a frame of two pairs of complements passes it: the
two inferences of 42_frame_assembly.md, in its sections 3 and 4, that the spec marks as its own. -/
def Obligations.SourceFormulaAgreesWithTheCheck : Prop :=
  (∀ f : Word, valid f = true ↔
    (f.extractLsb' 24 8 &&& ~~~(f.extractLsb' 16 8) = f.extractLsb' 24 8 ∧
     f.extractLsb' 8 8 &&& ~~~(f.extractLsb' 0 8) = f.extractLsb' 8 8)) ∧
  (∀ a k : Byte, valid (frameOf a (~~~a) k (~~~k)) = true)

/-- In every step the event's command is bits 15:8 of its frame and its flag is Valid of it (30_encoding.md R63); the four
fields of the frame word, put together in order, are the frame word (30_encoding.md R60); and byte k of it is its k-th field
(20_memory.md R46 and R47, which the spec derives). -/
def Obligations.EventFieldsComeFromOneFrame : Prop :=
  (∀ (s s' : State) (e : Event), step s = .next s' → s'.evt = some e →
    e.cmd = e.frame.extractLsb' 8 8 ∧ e.valid = valid e.frame) ∧
  (∀ f : Word, frameOf (frameAddr f) (frameNaddr f) (frameCmd f) (frameNcmd f) = f) ∧
  (∀ f : Word, frameByte f 0 = frameAddr f ∧ frameByte f 1 = frameNaddr f ∧
    frameByte f 2 = frameCmd f ∧ frameByte f 3 = frameNcmd f)

/-! ### EDGE.R, TIMEOUT, RESET -/

/-- EDGE.R writes no register and emits nothing (41_stimulus_operations.md R103): between two EDGE.F stimuli it changes
neither the delta nor anything else, and it does not set HAS_LAST. Its word is 0x20000000 with the tick in bits 23:0. -/
def Obligations.RisingEdgeHasNoEffect : Prop :=
  (∀ (s : State) (t : Tick), s.Ready (.edgeR t) →
    exec (.edgeR t) s = .next { s with evt := none } ∧
    ∀ u : Tick, exec (.edgeF u) { s with evt := none } = exec (.edgeF u) s) ∧
  ∀ t : Tick, t.toNat < 2 ^ 24 → encode (.edgeR t) = 0x20000000#32 ||| t

/-- TIMEOUT (41_stimulus_operations.md R104): FrameReset and HAS_LAST <- 0; T_LAST stays; nothing is emitted; on an idle
block it changes nothing; two in a row act as one; the next EDGE.F is a first edge. Its word is 0x40000000. -/
def Obligations.TimeoutForgetsTheReference : Prop :=
  encode .timeout = 0x40000000#32 ∧ ∀ s : State, s.Ready .timeout → ∃ s',
    s' = { s with bitCnt := 0#5, shift := 0x00000000#32, inFrame := false, hasLast := false, evt := none } ∧
    exec .timeout s = .next s' ∧
    (s.hasLast = false → exec .timeout s = .next { s with evt := none }) ∧
    exec .timeout s' = .next s' ∧
    ∀ t : Tick, t.toNat < 2 ^ s.cfg.tickWidth →
      exec (.edgeF t) s' = .next { s' with tLast := t, hasLast := true }

/-- RESET (41_stimulus_operations.md R106) in any state that keeps the invariants: the five registers take their reset
values, nothing is emitted, the configuration is not changed, and a second RESET leaves the same state. Its word is
0x80000000. -/
def Obligations.ResetGivesTheResetState : Prop :=
  encode .reset = 0x80000000#32 ∧ ∀ s : State, s.Ready .reset → ∃ s',
    s' = { s with
      bitCnt := 0#5, shift := 0x00000000#32, inFrame := false, hasLast := false, tLast := 0#32, evt := none } ∧
    exec .reset s = .next s' ∧ exec .reset s' = .next s'

/-- The state after RESET (70_reset_and_hazards.md R160), register by register, both as what RESET leaves and as the state
in which a run starts, under every configuration. -/
def Obligations.ResetValuesOfTheRegisters : Prop :=
  (∀ c : Config, (State.resetWith c).hasLast = false ∧ (State.resetWith c).tLast = 0#32 ∧
    (State.resetWith c).inFrame = false ∧ (State.resetWith c).bitCnt = 0#5 ∧
    (State.resetWith c).shift = 0x00000000#32 ∧ (State.resetWith c).evt = none) ∧
  (∀ s : State, s.Ready .reset → ∃ s', exec .reset s = .next s' ∧
    { s' with trace := [], input := [] } = State.resetWith s.cfg)

/-! ### Registers: who writes and who reads them -/

/-- HAS_LAST (10_state.md R21): RESET and TIMEOUT write 0, the first EDGE.F writes 1, and no other stimulus writes it. -/
def Obligations.WritersOfHasLast : Prop :=
  ∀ (s s' : State) (i : Instr), exec i s = .next s' →
    ((i = .reset ∨ i = .timeout) → s'.hasLast = false) ∧
    (∀ t, i = .edgeF t → s.hasLast = false → s'.hasLast = true) ∧
    (∀ t, i = .edgeF t → s.hasLast = true → s'.hasLast = s.hasLast) ∧
    (∀ t, i = .edgeR t → s'.hasLast = s.hasLast)

/-- T_LAST (10_state.md R22): every EDGE.F writes it, whatever its class, RESET writes 0, TIMEOUT and EDGE.R and the frame
procedures do not write it; it is read only while HAS_LAST = 1: with HAS_LAST = 0 its value changes nothing else. -/
def Obligations.WritersAndReadersOfTLast : Prop :=
  (∀ (s s' : State) (i : Instr), exec i s = .next s' →
    s'.tLast = match i with
      | .edgeF t => t
      | .reset => 0#32
      | .edgeR _ => s.tLast
      | .timeout => s.tLast) ∧
  (∀ (s : State) (b : Bool), s.frameReset.tLast = s.tLast ∧ s.openFrame.tLast = s.tLast ∧
    (s.acceptBit b).tLast = s.tLast) ∧
  (∀ (s s' : State) (i : Instr) (v : Tick), s.hasLast = false → exec i s = .next s' →
    ∃ v', exec i { s with tLast := v } = .next { s' with tLast := v' })

/-- IN_FRAME (10_state.md R26): only a LEADER delta sets it, and only a completion, an ABORT, TIMEOUT or RESET clears it. -/
def Obligations.OnlyALeaderOpensAFrame : Prop :=
  ∀ (s s' : State) (i : Instr), exec i s = .next s' →
    (s.inFrame = false → s'.inFrame = true →
      ∃ t, i = .edgeF t ∧ s.hasLast = true ∧ s.cfg.InLeaderWindow (delta s.cfg s.tLast t)) ∧
    (s.inFrame = true → s'.inFrame = false →
      i = .timeout ∨ i = .reset ∨
      ∃ t, i = .edgeF t ∧ (s.cfg.abort ≤ delta s.cfg s.tLast t ∨ s'.evt ≠ none))

/-- What no step changes and how the ports move: the configuration is fixed (00_scope.md R6), one stimulus at most leaves
the input port, in order, and at most one event joins the trace, behind the earlier ones (20_memory.md R51). -/
def Obligations.StepKeepsConfigurationAndOrder : Prop :=
  ∀ s s' : State, step s = .next s' →
    s'.cfg = s.cfg ∧ s'.input = s.input.tail ∧ s'.trace = s.trace ++ s'.evt.toList

/-- The frame of every stimulus but EDGE.F, and of EDGE.F while nothing completes: what each leaves unchanged when `exec`
gives a next state. The block has no memory, so no byte of memory is at stake (20_memory.md R40). -/
def Obligations.StimuliLeaveTheRestUnchanged : Prop :=
  ∀ (s s' : State) (i : Instr), exec i s = .next s' →
    s'.cfg = s.cfg ∧ s'.input = s.input ∧
    (s'.evt = none → s'.trace = s.trace) ∧
    (∀ t, i = .edgeR t → s' = { s with evt := none }) ∧
    (i = .timeout → s'.tLast = s.tLast ∧ s'.trace = s.trace) ∧
    (i = .reset → s'.trace = s.trace) ∧
    (∀ t, i = .edgeF t → classify s.cfg (delta s.cfg s.tLast t) = .noise →
      s'.inFrame = s.inFrame ∧ s'.bitCnt = s.bitCnt ∧ s'.shift = s.shift ∧ s'.trace = s.trace) ∧
    (∀ t, i = .edgeF t → s'.evt = none → s.hasLast = true →
      classify s.cfg (delta s.cfg s.tLast t) ≠ .leader → classify s.cfg (delta s.cfg s.tLast t) ≠ .abort →
      s'.inFrame = s.inFrame ∧ ∀ k, k ≠ 31 - s.bitCnt.toNat → s'.shift.getLsbD k = s.shift.getLsbD k)

/-- The next state's registers and its strobe are a function of the configuration, the five registers and the next stimulus
alone: nothing of an earlier strobe, of the trace or of later stimuli enters (10_state.md R20, R29). -/
def Obligations.NothingButTheFiveRegistersCarriesOver : Prop :=
  ∀ (s s' : State) (e : Option Event) (tr : List Event) (rest rest' : List Input) (x : Input),
    step { s with input := x :: rest } = .next s' →
    ∃ t', step { s with evt := e, trace := tr, input := x :: rest' } = .next t' ∧
      t'.evt = s'.evt ∧ t'.trace = tr ++ s'.evt.toList ∧ t'.cfg = s'.cfg ∧ t'.hasLast = s'.hasLast ∧
      t'.tLast = s'.tLast ∧ t'.inFrame = s'.inFrame ∧ t'.bitCnt = s'.bitCnt ∧ t'.shift = s'.shift

/-- Position in the frame (10_state.md section 1): the byte index and the bit-in-byte position computed from BIT_CNT name
the bit of SHIFT that the next accepted bit is written to. -/
def Obligations.ByteAndBitPositionNameTheNextBit : Prop :=
  ∀ s : State, s.byteIndex ≤ 3 ∧ s.bitInByte ≤ 7 ∧
    31 - s.bitCnt.toNat = 8 * (3 - s.byteIndex) + s.bitInByte

/-! ### Invariants and whole runs -/

/-- The invariants hold at reset, under every well-formed configuration and under RC1. -/
def Obligations.InvariantHoldsAtReset : Prop :=
  (∀ c : Config, c.WellFormed → (State.resetWith c).Inv) ∧ State.reset.Inv

/-- Every step keeps the invariants I1 to I4 of 10_state.md section 1 (which the spec derives), with the width of T_LAST
and the coherence of every event, from every state that meets them. -/
def Obligations.EveryStepKeepsTheInvariant : Prop :=
  ∀ s s' : State, s.Inv → step s = .next s' → s'.Inv

/-- No good input stops a run (41_stimulus_operations.md R99, 60_exceptions.md R140): from a state that meets the
invariants, with only well-formed stimuli waiting, every run of every length answers a next state. -/
def Obligations.GoodInputNeverStopsARun : Prop :=
  ∀ s : State, s.Inv → s.InputAccepted → SafeRun s

/-- The fault (60_exceptions.md R142): a stimulus that is not refused, from a state that breaks an invariant, faults, and
so does every longer run; no run from reset faults, whatever the input and the configuration. That RESET faults there too,
although 41_stimulus_operations.md R106 speaks of any state, is the model's reading (assumption 5). -/
def Obligations.OnlyUnreachableStatesFault : Prop :=
  (∀ (s : State) (i : Instr) (rest : List Input) (n : Nat), s.cfg.WellFormed → i.WellFormed s.cfg → ¬ s.Legal →
    exec i s = .fault (.unreachableState s) ∧
    Host.Core.run core (n + 1) { s with input := .record i :: rest } =
      .fault (.unreachableState { s with input := rest })) ∧
  (∀ s : State, (Fault.unreachableState s).code = 16) ∧
  (∀ (c : Config) (input : List Input) (k : Nat) (r : Fault),
    Host.Core.run core k { State.resetWith c with input := input } ≠ .fault r)

/-- Every frame word goes through (42_frame_assembly.md section 4, the round trip that the spec derives): from a state with
a reference edge, a start of a frame and then 32 intervals in the windows of the bits of `f`, most significant first, give
exactly one event, that of `f`; for `f` made of an address, a command and their complements it is
`Event(f, command, 1)`. The start is a LEADER interval or, where bits count and none is held, nothing: so also where
`P_REQUIRE_LEADER` is false and no leader was seen (the corner case of section 2 there). -/
def Obligations.EveryFrameWordRoundTrips : Prop :=
  ∀ (s : State) (f : Word) (start gaps : List Nat), s.Inv → s.hasLast = true →
    s.StartsFrame start → gaps.length = 32 →
    (∀ k (h : k < gaps.length), s.cfg.InBitWindow (f.getLsbD (31 - k)) gaps[k]) →
    ∃ s', execAll (edgesAfter s.cfg s.tLast (start ++ gaps)) s = .next s' ∧
      s'.trace = s.trace ++ [⟨f, f.extractLsb' 8 8, valid f⟩] ∧
      s'.evt = some ⟨f, f.extractLsb' 8 8, valid f⟩ ∧
      ∀ a k : Byte, f = frameOf a (~~~a) k (~~~k) →
        s'.evt = some ⟨f, k, true⟩ ∧ f.extractLsb' 24 8 = a

/-- The k-th accepted bit sits at position 31 - k of SHIFT and every lower bit is 0 (10_state.md section 1, which the spec
derives): after a start of a frame and n < 32 accepted bits. The start is a LEADER interval, which leaves the frame open, or,
where bits count and none is held, nothing, and then IN_FRAME stays what it was. -/
def Obligations.AcceptedBitsSitMostSignificantFirst : Prop :=
  ∀ (s : State) (start : List Nat) (bits : List Bool) (gaps : List Nat), s.Inv → s.hasLast = true →
    s.StartsFrame start → bits.length < 32 → gaps.length = bits.length →
    (∀ k (h : k < gaps.length) (h' : k < bits.length), s.cfg.InBitWindow bits[k] gaps[k]) →
    ∃ s', execAll (edgesAfter s.cfg s.tLast (start ++ gaps)) s = .next s' ∧ s'.trace = s.trace ∧
      s'.inFrame = (if start = [] then s.inFrame else true) ∧ s'.bitCnt.toNat = bits.length ∧
      (∀ k (h : k < bits.length), s'.shift.getLsbD (31 - k) = bits[k]) ∧
      ∀ j, j < 32 - bits.length → s'.shift.getLsbD j = false

/-- No event before the 34th falling edge after reset where a leader is required (70_reset_and_hazards.md section 2, which
the spec derives), nor before the 33rd where none is (assumption 14), whatever else the stream holds. -/
def Obligations.NoEventBeforeEnoughEdges : Prop :=
  ∀ (c : Config) (is : List Instr) (s' : State), execAll is (State.resetWith c) = .next s' →
    fallingEdges is < (if c.requireLeader then 34 else 33) → s'.trace = []

/-- RESET and TIMEOUT leave the same observable state (41_stimulus_operations.md section 5, which the spec derives): two
states that differ only in a T_LAST that HAS_LAST = 0 hides stay so step by step, with the same strobe and the same trace,
and no run tells them apart. -/
def Obligations.HiddenReferenceTickIsUnobservable : Prop :=
  (∀ (s r t : State), exec .reset s = .next r → exec .timeout s = .next t → r.SameObservable t) ∧
  (∀ (s t s' : State) (k : Nat), s.SameObservable t → Host.Core.run core k s = .next s' →
    ∃ t', Host.Core.run core k t = .next t' ∧ s'.SameObservable t')

/-! ### The environment -/

/-- Two falling edges a true distance `L` apart have the delta L mod 2^W (40_interval_classifier.md section 2, which the
spec derives), so exactly L where L < 2^W; and a lost edge adds its two intervals (70_reset_and_hazards.md R166). -/
def Obligations.TimerWrapAndLostEdges : Prop :=
  (∀ (c : Config) (time L : Nat), c.WellFormed →
    delta c (tickAt c time) (tickAt c (time + L)) = L % 2 ^ c.tickWidth) ∧
  (∀ (c : Config) (a b t : Tick),
    delta c a t = (delta c a b + delta c b t) % 2 ^ c.tickWidth)

/-- Stimuli of one cycle are taken RESET, then TIMEOUT, then EDGE (60_exceptions.md R146): the list of every cycle, what
presenting it does, and that with a coinciding RESET nothing survives and with a coinciding TIMEOUT the edge is a first edge;
a rising edge then changes nothing more. What a cycle can present, and that the stimuli not taken first are taken next, is
assumption 11. -/
def Obligations.SameCycleStimuliInPriorityOrder : Prop :=
  (∀ (t : Tick) (edge : Option (Bool × Tick)) (is : List Instr),
    ((edge = none ∧ is = []) ∨ (edge = some (false, t) ∧ is = [.edgeF t]) ∨ (edge = some (true, t) ∧ is = [.edgeR t])) →
    Cycle.stimuli ⟨true, true, edge⟩ = .reset :: .timeout :: is ∧ Cycle.stimuli ⟨true, false, edge⟩ = .reset :: is ∧
    Cycle.stimuli ⟨false, true, edge⟩ = .timeout :: is ∧ Cycle.stimuli ⟨false, false, edge⟩ = is) ∧
  (∀ (s : State) (k : Cycle), s.cfg.WellFormed → s.Legal → s.input = [] →
    Host.Core.run core k.stimuli.length (s.present k) = execAll k.stimuli s) ∧
  (∀ (s : State) (t : Tick) (timeout : Bool), s.Ready (.edgeF t) →
    execAll (Cycle.stimuli ⟨true, timeout, some (false, t)⟩) s =
      .next { State.resetWith s.cfg with tLast := t, hasLast := true, trace := s.trace, input := s.input } ∧
    execAll (Cycle.stimuli ⟨true, timeout, some (true, t)⟩) s =
      .next { State.resetWith s.cfg with trace := s.trace, input := s.input }) ∧
  (∀ (s : State) (t : Tick), s.Ready (.edgeF t) →
    execAll (Cycle.stimuli ⟨false, true, some (false, t)⟩) s = .next { State.resetWith s.cfg with
      tLast := t, hasLast := true, trace := s.trace, input := s.input } ∧
    execAll (Cycle.stimuli ⟨false, true, some (true, t)⟩) s = .next { State.resetWith s.cfg with
      tLast := s.tLast, trace := s.trace, input := s.input })

/-! ### The assembler notation -/

/-- `FRAME a, c` expands to 33 falling edges, the first a leader after the variable `t`, the others the bits of a, ~a, c,
~c, most significant first (30_encoding.md R71): the tick of edge n is `t` plus the intervals 0 to n, modulo 2^W. How many
ticks a nominal interval has is assumption 13. -/
def Obligations.FrameLineIsALeaderAndThirtyTwoBits : Prop :=
  ∀ (c : Config) (t : Tick) (a k : Byte), c.WellFormed →
    ((AsmLine.frame a k).expand c t).length = 33 ∧ fallingEdges ((AsmLine.frame a k).expand c t) = 33 ∧
    ((AsmLine.frame a k).gaps c).head? = some (nominalLead c) ∧
    (∀ n, n < 32 → ((AsmLine.frame a k).gaps c)[n + 1]? =
      some (if (frameOf a (~~~a) k (~~~k)).getLsbD (31 - n) then nominalOne c else nominalZero c)) ∧
    (∀ n, n < 33 → ∃ u : Tick, ((AsmLine.frame a k).expand c t)[n]? = some (.edgeF u) ∧
      u.toNat = (t.toNat + (((AsmLine.frame a k).gaps c).take (n + 1)).sum) % 2 ^ c.tickWidth) ∧
    ∀ i ∈ (AsmLine.frame a k).expand c t, i.WellFormed c

/-- How a line of a listing moves the assembler's variable and what it emits (30_encoding.md R71): a stimulus stands for
itself, and only EDGE.F sets the variable; `.TICK v` sets it and emits nothing; any other line emits one EDGE.F for each of
its intervals, edge n at the variable plus the intervals 0 to n, modulo 2^W, and leaves the variable at the last of them;
the variable starts at 0 and each line starts where the one before it left it. -/
def Obligations.ListingEmitsEdgesAtItsIntervals : Prop :=
  (∀ (c : Config) (t u : Tick), (AsmLine.plain (.edgeF u)).expand c t = [.edgeF u] ∧
    (AsmLine.plain (.edgeF u)).tickAfterLine c t = u) ∧
  (∀ (c : Config) (t : Tick) (i : Instr), (∀ u, i ≠ .edgeF u) →
    (AsmLine.plain i).expand c t = [i] ∧ (AsmLine.plain i).tickAfterLine c t = t) ∧
  (∀ (c : Config) (t v : Tick), (AsmLine.setTick v).expand c t = [] ∧ (AsmLine.setTick v).tickAfterLine c t = v) ∧
  (∀ (c : Config) (t : Tick) (a : AsmLine), c.WellFormed → (∀ i, a ≠ .plain i) → (∀ v, a ≠ .setTick v) →
    (a.expand c t).length = (a.gaps c).length ∧ 0 < (a.gaps c).length ∧
    (∀ n, n < (a.gaps c).length → ∃ u : Tick, (a.expand c t)[n]? = some (.edgeF u) ∧
      u.toNat = (t.toNat + ((a.gaps c).take (n + 1)).sum) % 2 ^ c.tickWidth) ∧
    (a.tickAfterLine c t).toNat = (t.toNat + (a.gaps c).sum) % 2 ^ c.tickWidth) ∧
  (∀ (c : Config) (t : Tick) (a : AsmLine) (as : List AsmLine), assemble c as = assembleFrom c 0#32 as ∧
    assembleFrom c t [] = [] ∧ assembleFrom c t (a :: as) = a.expand c t ++ assembleFrom c (a.tickAfterLine c t) as)

/-- The intervals of each pseudo-instruction, row by row of the table in 30_encoding.md R71, for every configuration. How
many ticks a nominal interval has is assumption 13. -/
def Obligations.IntervalsOfEachPseudoInstruction : Prop :=
  ∀ c : Config,
    (∀ d : Nat, (AsmLine.gap d).gaps c = [d]) ∧
    AsmLine.bit0.gaps c = [nominalZero c] ∧ AsmLine.bit1.gaps c = [nominalOne c] ∧
    AsmLine.lead.gaps c = [nominalLead c] ∧ AsmLine.repeatCode.gaps c = [nominalRepeat c] ∧
    (∀ v : Byte, ((AsmLine.byte v).gaps c).length = 8 ∧ ∀ n, n < 8 → ((AsmLine.byte v).gaps c)[n]? =
      some (if v.getLsbD (7 - n) then nominalOne c else nominalZero c)) ∧
    (∀ w : Word, ((AsmLine.word w).gaps c).length = 32 ∧ ∀ n, n < 32 → ((AsmLine.word w).gaps c)[n]? =
      some (if w.getLsbD (31 - n) then nominalOne c else nominalZero c)) ∧
    (∀ a k : Byte, (AsmLine.frame a k).gaps c = AsmLine.lead.gaps c ++ (AsmLine.byte a).gaps c ++
      (AsmLine.byte (~~~a)).gaps c ++ (AsmLine.byte k).gaps c ++ (AsmLine.byte (~~~k)).gaps c)
end

