-- ==== Sys2Proof/Laws/Operands.lean ====
section
/-!
SUPPORT. What the delta and its class can be (40_interval_classifier.md).
-/

namespace Sys2Proof

/-- The modulus is a power of two, so it is not 0. -/
theorem Config.modulus_pos (c : Config) : 0 < c.modulus := Nat.pow_pos (by decide)

/-- W is at most 32, so a tick of 32 bits holds every W-bit value. -/
theorem Config.WellFormed.modulus_le {c : Config} (h : c.WellFormed) : c.modulus ≤ 2 ^ 32 :=
  Nat.pow_le_pow_right (by decide) h.1.2

end Sys2Proof

namespace Sys2Proof.Machine

/-- The delta as an integer: the exact difference modulo 2^W. -/
theorem delta_cast (c : Config) (a t : Tick) :
    (delta c a t : Int) = ((t.toNat : Int) - a.toNat) % c.modulus := by
  have hm := c.modulus_pos
  exact Int.toNat_of_nonneg (Int.emod_nonneg _ (by omega))

/-- The delta is a W-bit value. -/
theorem delta_lt_modulus (c : Config) (a t : Tick) : delta c a t < c.modulus := by
  have hm := c.modulus_pos
  have := Int.emod_lt_of_pos ((t.toNat : Int) - a.toNat) (show (0 : Int) < c.modulus by omega)
  have := delta_cast c a t
  omega

/-- The tick of a true time, where a tick holds every W-bit value. -/
theorem tickAt_toNat {c : Config} (h : c.WellFormed) (time : Nat) :
    (tickAt c time).toNat = time % c.modulus := by
  have := Nat.mod_lt time c.modulus_pos
  have := h.modulus_le
  rw [tickAt, BitVec.toNat_ofNat, Nat.mod_eq_of_lt (by omega)]

/-- What the first test that holds says of the delta, for each class (40_interval_classifier.md R81). -/
theorem classify_cases (c : Config) (d : Nat) :
    (classify c d = .abort ∧ c.abort ≤ d) ∨
    (classify c d = .leader ∧ d < c.abort ∧ c.leadMin ≤ d ∧ d ≤ c.leadMax) ∨
    (classify c d = .one ∧ d < c.abort ∧ c.oneMin ≤ d ∧ d ≤ c.oneMax) ∨
    (classify c d = .zero ∧ d < c.abort ∧ c.zeroMin ≤ d ∧ d ≤ c.zeroMax) ∨
    (classify c d = .noise ∧ d < c.abort) := by
  unfold classify
  split_ifs with h1 h2 h3 h4
  · exact .inl ⟨rfl, h1⟩
  · exact .inr (.inl ⟨rfl, by omega, h2⟩)
  · exact .inr (.inr (.inl ⟨rfl, by omega, h3⟩))
  · exact .inr (.inr (.inr (.inl ⟨rfl, by omega, h4⟩)))
  · exact .inr (.inr (.inr (.inr ⟨rfl, by omega⟩)))

end Sys2Proof.Machine
end

