-- ==== Sys2Proof/Laws/Assembler.lean ====
section
/-!
SUPPORT. Sums of ticks and the lists of falling edges that the assembler emits (30_encoding.md R71).
-/

namespace Sys2Proof.Machine

/-- A tick sum is taken modulo 2^W. -/
theorem tickAfter_toNat {c : Config} (h : c.WellFormed) (t : Tick) (d : Nat) :
    (tickAfter c t d).toNat = (t.toNat + d) % c.modulus := tickAt_toNat h _

/-- Each interval emits one edge. -/
@[simp] theorem edgesAfter_length (c : Config) (t : Tick) (ds : List Nat) : (edgesAfter c t ds).length = ds.length := by
  induction ds generalizing t with
  | nil => rfl
  | cons d ds ih => simp [edgesAfter, ih]

/-- Edges over intervals in a row: the later ones start where the earlier ones left the variable. -/
theorem edgesAfter_append (c : Config) (t : Tick) (as bs : List Nat) :
    edgesAfter c t (as ++ bs) = edgesAfter c t as ++ edgesAfter c (as.foldl (tickAfter c) t) bs := by
  induction as generalizing t with
  | nil => rfl
  | cons d as ih => simp only [List.cons_append, edgesAfter, List.foldl_cons, ih]

end Sys2Proof.Machine
end

