-- ==== Sys2Proof/Laws/Decode.lean ====
section
/-!
SUPPORT. The fields of a stimulus word as arithmetic on its number (30_encoding.md R65, 00_scope.md R10).
-/

namespace Sys2Proof

theorem Word.op_toNat (w : Word) : (Word.op w).toNat = w.toNat / 2 ^ 30 := by
  have := w.isLt
  simp only [Word.op, BitVec.extractLsb'_toNat, Nat.shiftRight_eq_div_pow]
  omega

theorem Word.rsv_toNat (w : Word) : (Word.rsv w).toNat = w.toNat / 2 ^ 24 % 2 ^ 5 := by
  simp only [Word.rsv, BitVec.extractLsb'_toNat, Nat.shiftRight_eq_div_pow]

theorem Word.tickField_toNat (w : Word) : (Word.tickField w).toNat = w.toNat % 2 ^ 24 := by
  simp [Word.tickField, BitVec.extractLsb'_toNat]

theorem Word.belowOp_toNat (w : Word) : (Word.belowOp w).toNat = w.toNat % 2 ^ 30 := by
  simp [Word.belowOp, BitVec.extractLsb'_toNat]

theorem Word.pol_eq (w : Word) : Word.pol w = decide (w.toNat / 2 ^ 29 % 2 = 1) := by
  simp [Word.pol, BitVec.getLsbD, Nat.testBit_eq_decide_div_mod_eq]

/-- A configuration under which some word decodes is well-formed and has ticks that fit the word. -/
theorem decode_eq_ok {c : Config} {w : Word} {i : Instr} (h : decode c w = .ok i) :
    c.WellFormed ∧ c.FitsWord ∧ decodeFields c w = .ok i := by
  unfold decode at h
  split_ifs at h with h1 h2
  exact ⟨h1, h2, h⟩

end Sys2Proof
end

