-- ==== Sys2Proof/Laws/Flags.lean ====
section
/-!
SUPPORT. The fields of a frame word put together from four bytes (30_encoding.md R60, R61).
-/

namespace Sys2Proof.Machine

/-- A frame word bit by bit: NCMD lowest, ADDR highest. -/
theorem getLsbD_frameOf (a b c d : Byte) (i : Nat) :
    (frameOf a b c d).getLsbD i =
      if i < 8 then d.getLsbD i else if i < 16 then c.getLsbD (i - 8)
      else if i < 24 then b.getLsbD (i - 16) else a.getLsbD (i - 24) := by
  have h : frameOf a b c d = (((a ++ b) ++ c) ++ d) := rfl
  rw [h, BitVec.getLsbD_append, BitVec.getLsbD_append, BitVec.getLsbD_append]
  split_ifs <;> first | rfl | omega

@[simp] theorem frameAddr_frameOf (a b c d : Byte) : frameAddr (frameOf a b c d) = a := by
  apply BitVec.eq_of_getLsbD_eq
  intro i hi
  rw [frameAddr, BitVec.getLsbD_extractLsb', getLsbD_frameOf]
  simp [hi, show ¬ 24 + i < 8 by omega, show ¬ 24 + i < 16 by omega]

@[simp] theorem frameNaddr_frameOf (a b c d : Byte) : frameNaddr (frameOf a b c d) = b := by
  apply BitVec.eq_of_getLsbD_eq
  intro i hi
  rw [frameNaddr, BitVec.getLsbD_extractLsb', getLsbD_frameOf]
  simp [hi, show ¬ 16 + i < 8 by omega, show 16 + i < 24 by omega]

@[simp] theorem frameCmd_frameOf (a b c d : Byte) : frameCmd (frameOf a b c d) = c := by
  apply BitVec.eq_of_getLsbD_eq
  intro i hi
  rw [frameCmd, BitVec.getLsbD_extractLsb', getLsbD_frameOf]
  simp [hi, show 8 + i < 16 by omega]

@[simp] theorem frameNcmd_frameOf (a b c d : Byte) : frameNcmd (frameOf a b c d) = d := by
  apply BitVec.eq_of_getLsbD_eq
  intro i hi
  rw [frameNcmd, BitVec.getLsbD_extractLsb', getLsbD_frameOf]
  simp [hi]

/-- The command of a frame's event is its CMD field (42_frame_assembly.md R129). -/
@[simp] theorem frameEvent_cmd (f : Word) : (frameEvent f).cmd = frameCmd f := rfl
@[simp] theorem frameEvent_frame (f : Word) : (frameEvent f).frame = f := rfl
@[simp] theorem frameEvent_valid (f : Word) : (frameEvent f).valid = valid f := rfl

end Sys2Proof.Machine
end

