-- ==== Sys2Proof/Laws/State.lean ====
section
/-!
SUPPORT. What each update of the state leaves in each field: one lemma per field per update, true by definition.
-/

namespace Sys2Proof.Machine

@[simp] theorem State.strobeLow_cfg (s : State) : s.strobeLow.cfg = s.cfg := rfl
@[simp] theorem State.strobeLow_hasLast (s : State) : s.strobeLow.hasLast = s.hasLast := rfl
@[simp] theorem State.strobeLow_tLast (s : State) : s.strobeLow.tLast = s.tLast := rfl
@[simp] theorem State.strobeLow_inFrame (s : State) : s.strobeLow.inFrame = s.inFrame := rfl
@[simp] theorem State.strobeLow_bitCnt (s : State) : s.strobeLow.bitCnt = s.bitCnt := rfl
@[simp] theorem State.strobeLow_shift (s : State) : s.strobeLow.shift = s.shift := rfl
@[simp] theorem State.strobeLow_evt (s : State) : s.strobeLow.evt = none := rfl
@[simp] theorem State.strobeLow_trace (s : State) : s.strobeLow.trace = s.trace := rfl
@[simp] theorem State.strobeLow_input (s : State) : s.strobeLow.input = s.input := rfl

@[simp] theorem State.emit_cfg (s : State) (e : Event) : (s.emit e).cfg = s.cfg := rfl
@[simp] theorem State.emit_hasLast (s : State) (e : Event) : (s.emit e).hasLast = s.hasLast := rfl
@[simp] theorem State.emit_tLast (s : State) (e : Event) : (s.emit e).tLast = s.tLast := rfl
@[simp] theorem State.emit_inFrame (s : State) (e : Event) : (s.emit e).inFrame = s.inFrame := rfl
@[simp] theorem State.emit_bitCnt (s : State) (e : Event) : (s.emit e).bitCnt = s.bitCnt := rfl
@[simp] theorem State.emit_shift (s : State) (e : Event) : (s.emit e).shift = s.shift := rfl
@[simp] theorem State.emit_evt (s : State) (e : Event) : (s.emit e).evt = some e := rfl
@[simp] theorem State.emit_trace (s : State) (e : Event) : (s.emit e).trace = s.trace ++ [e] := rfl
@[simp] theorem State.emit_input (s : State) (e : Event) : (s.emit e).input = s.input := rfl

@[simp] theorem State.frameReset_cfg (s : State) : s.frameReset.cfg = s.cfg := rfl
@[simp] theorem State.frameReset_hasLast (s : State) : s.frameReset.hasLast = s.hasLast := rfl
@[simp] theorem State.frameReset_tLast (s : State) : s.frameReset.tLast = s.tLast := rfl
@[simp] theorem State.frameReset_inFrame (s : State) : s.frameReset.inFrame = false := rfl
@[simp] theorem State.frameReset_bitCnt (s : State) : s.frameReset.bitCnt = 0#5 := rfl
@[simp] theorem State.frameReset_shift (s : State) : s.frameReset.shift = 0#32 := rfl
@[simp] theorem State.frameReset_evt (s : State) : s.frameReset.evt = s.evt := rfl
@[simp] theorem State.frameReset_trace (s : State) : s.frameReset.trace = s.trace := rfl
@[simp] theorem State.frameReset_input (s : State) : s.frameReset.input = s.input := rfl

@[simp] theorem State.openFrame_cfg (s : State) : s.openFrame.cfg = s.cfg := rfl
@[simp] theorem State.openFrame_hasLast (s : State) : s.openFrame.hasLast = s.hasLast := rfl
@[simp] theorem State.openFrame_tLast (s : State) : s.openFrame.tLast = s.tLast := rfl
@[simp] theorem State.openFrame_inFrame (s : State) : s.openFrame.inFrame = true := rfl
@[simp] theorem State.openFrame_bitCnt (s : State) : s.openFrame.bitCnt = 0#5 := rfl
@[simp] theorem State.openFrame_shift (s : State) : s.openFrame.shift = 0#32 := rfl
@[simp] theorem State.openFrame_evt (s : State) : s.openFrame.evt = s.evt := rfl
@[simp] theorem State.openFrame_trace (s : State) : s.openFrame.trace = s.trace := rfl
@[simp] theorem State.openFrame_input (s : State) : s.openFrame.input = s.input := rfl

@[simp] theorem State.timeoutEffect_cfg (s : State) : s.timeoutEffect.cfg = s.cfg := rfl
@[simp] theorem State.timeoutEffect_hasLast (s : State) : s.timeoutEffect.hasLast = false := rfl
@[simp] theorem State.timeoutEffect_tLast (s : State) : s.timeoutEffect.tLast = s.tLast := rfl
@[simp] theorem State.timeoutEffect_inFrame (s : State) : s.timeoutEffect.inFrame = false := rfl
@[simp] theorem State.timeoutEffect_bitCnt (s : State) : s.timeoutEffect.bitCnt = 0#5 := rfl
@[simp] theorem State.timeoutEffect_shift (s : State) : s.timeoutEffect.shift = 0#32 := rfl
@[simp] theorem State.timeoutEffect_evt (s : State) : s.timeoutEffect.evt = s.evt := rfl
@[simp] theorem State.timeoutEffect_trace (s : State) : s.timeoutEffect.trace = s.trace := rfl
@[simp] theorem State.timeoutEffect_input (s : State) : s.timeoutEffect.input = s.input := rfl

@[simp] theorem State.resetEffect_cfg (s : State) : s.resetEffect.cfg = s.cfg := rfl
@[simp] theorem State.resetEffect_hasLast (s : State) : s.resetEffect.hasLast = false := rfl
@[simp] theorem State.resetEffect_tLast (s : State) : s.resetEffect.tLast = 0#32 := rfl
@[simp] theorem State.resetEffect_inFrame (s : State) : s.resetEffect.inFrame = false := rfl
@[simp] theorem State.resetEffect_bitCnt (s : State) : s.resetEffect.bitCnt = 0#5 := rfl
@[simp] theorem State.resetEffect_shift (s : State) : s.resetEffect.shift = 0#32 := rfl
@[simp] theorem State.resetEffect_evt (s : State) : s.resetEffect.evt = s.evt := rfl
@[simp] theorem State.resetEffect_trace (s : State) : s.resetEffect.trace = s.trace := rfl
@[simp] theorem State.resetEffect_input (s : State) : s.resetEffect.input = s.input := rfl

@[simp] theorem State.takeStimulus_cfg (s : State) : s.takeStimulus.cfg = s.cfg := rfl
@[simp] theorem State.takeStimulus_hasLast (s : State) : s.takeStimulus.hasLast = s.hasLast := rfl
@[simp] theorem State.takeStimulus_tLast (s : State) : s.takeStimulus.tLast = s.tLast := rfl
@[simp] theorem State.takeStimulus_inFrame (s : State) : s.takeStimulus.inFrame = s.inFrame := rfl
@[simp] theorem State.takeStimulus_bitCnt (s : State) : s.takeStimulus.bitCnt = s.bitCnt := rfl
@[simp] theorem State.takeStimulus_shift (s : State) : s.takeStimulus.shift = s.shift := rfl
@[simp] theorem State.takeStimulus_evt (s : State) : s.takeStimulus.evt = s.evt := rfl
@[simp] theorem State.takeStimulus_trace (s : State) : s.takeStimulus.trace = s.trace := rfl
@[simp] theorem State.takeStimulus_input (s : State) : s.takeStimulus.input = s.input.tail := rfl

@[simp] theorem State.deliver_cfg (s : State) (is : List Instr) : (s.deliver is).cfg = s.cfg := rfl
@[simp] theorem State.deliver_hasLast (s : State) (is : List Instr) : (s.deliver is).hasLast = s.hasLast := rfl
@[simp] theorem State.deliver_tLast (s : State) (is : List Instr) : (s.deliver is).tLast = s.tLast := rfl
@[simp] theorem State.deliver_inFrame (s : State) (is : List Instr) : (s.deliver is).inFrame = s.inFrame := rfl
@[simp] theorem State.deliver_bitCnt (s : State) (is : List Instr) : (s.deliver is).bitCnt = s.bitCnt := rfl
@[simp] theorem State.deliver_shift (s : State) (is : List Instr) : (s.deliver is).shift = s.shift := rfl
@[simp] theorem State.deliver_evt (s : State) (is : List Instr) : (s.deliver is).evt = s.evt := rfl
@[simp] theorem State.deliver_trace (s : State) (is : List Instr) : (s.deliver is).trace = s.trace := rfl
@[simp] theorem State.deliver_input (s : State) (is : List Instr) : (s.deliver is).input = s.input ++ is.map .record := rfl

@[simp] theorem State.withFetchWord_cfg (s : State) (nbits w : Nat) : (s.withFetchWord nbits w).cfg = s.cfg := rfl
@[simp] theorem State.withFetchWord_hasLast (s : State) (nbits w : Nat) : (s.withFetchWord nbits w).hasLast = s.hasLast := rfl
@[simp] theorem State.withFetchWord_tLast (s : State) (nbits w : Nat) : (s.withFetchWord nbits w).tLast = s.tLast := rfl
@[simp] theorem State.withFetchWord_inFrame (s : State) (nbits w : Nat) : (s.withFetchWord nbits w).inFrame = s.inFrame := rfl
@[simp] theorem State.withFetchWord_bitCnt (s : State) (nbits w : Nat) : (s.withFetchWord nbits w).bitCnt = s.bitCnt := rfl
@[simp] theorem State.withFetchWord_shift (s : State) (nbits w : Nat) : (s.withFetchWord nbits w).shift = s.shift := rfl
@[simp] theorem State.withFetchWord_evt (s : State) (nbits w : Nat) : (s.withFetchWord nbits w).evt = s.evt := rfl
@[simp] theorem State.withFetchWord_trace (s : State) (nbits w : Nat) : (s.withFetchWord nbits w).trace = s.trace := rfl
@[simp] theorem State.withFetchWord_input (s : State) (nbits w : Nat) : (s.withFetchWord nbits w).input = .word (wordOfBits nbits w) :: s.input := rfl

@[simp] theorem State.resetWith_cfg (c : Config) : (State.resetWith c).cfg = c := rfl
@[simp] theorem State.resetWith_hasLast (c : Config) : (State.resetWith c).hasLast = false := rfl
@[simp] theorem State.resetWith_tLast (c : Config) : (State.resetWith c).tLast = 0#32 := rfl
@[simp] theorem State.resetWith_inFrame (c : Config) : (State.resetWith c).inFrame = false := rfl
@[simp] theorem State.resetWith_bitCnt (c : Config) : (State.resetWith c).bitCnt = 0#5 := rfl
@[simp] theorem State.resetWith_shift (c : Config) : (State.resetWith c).shift = 0#32 := rfl
@[simp] theorem State.resetWith_evt (c : Config) : (State.resetWith c).evt = none := rfl
@[simp] theorem State.resetWith_trace (c : Config) : (State.resetWith c).trace = [] := rfl
@[simp] theorem State.resetWith_input (c : Config) : (State.resetWith c).input = [] := rfl

/-- The state that every run starts from unless its premise names another (70_reset_and_hazards.md R162). -/
@[simp] theorem State.reset_eq : State.reset = State.resetWith Config.rc1 := rfl

end Sys2Proof.Machine
end

