-- ==== Sys2Proof/Laws/Ops.lean ====
section
/-!
SUPPORT. One lemma per shared operation that says everything it can do, and what follows for the meanings, for `exec` and
for `step`. Later proofs cite these and do not unfold the operations again.
-/

namespace Sys2Proof.Machine

/-! ### The guard -/

/-- The guard answers a next state exactly from a legal state. -/
theorem fromLegal_eq_next {s s' : State} {f : State → State} :
    fromLegal s f = .next s' ↔ s.Legal ∧ s' = f s.strobeLow := by
  unfold fromLegal
  split <;> simp_all [eq_comm]

/-- From a legal state the guard answers the effect. -/
theorem fromLegal_of_legal {s : State} (f : State → State) (h : s.Legal) :
    fromLegal s f = .next (f s.strobeLow) := fromLegal_eq_next.2 ⟨h, rfl⟩

/-- From any other state it faults. -/
theorem fromLegal_of_not_legal {s : State} (f : State → State) (h : ¬ s.Legal) :
    fromLegal s f = .fault (.unreachableState s) := if_pos h

/-- A stimulus completes exactly when it is ready, and then its effect starts with the strobe low. -/
theorem runStimulus_eq_next {i : Instr} {s s' : State} {f : State → State} :
    runStimulus i s f = .next s' ↔
      s.cfg.WellFormed ∧ i.WellFormed s.cfg ∧ s.Legal ∧ s' = f s.strobeLow := by
  unfold runStimulus
  split
  · simp_all
  · split
    · simp_all
    · rw [fromLegal_eq_next]
      simp_all

/-- A stimulus faults exactly when it is not refused and the state breaks an invariant. -/
theorem runStimulus_eq_fault {i : Instr} {s : State} {f : State → State} {r : Fault} :
    runStimulus i s f = .fault r ↔
      s.cfg.WellFormed ∧ i.WellFormed s.cfg ∧ ¬ s.Legal ∧ r = .unreachableState s := by
  unfold runStimulus fromLegal
  split
  · simp_all
  · split
    · simp_all
    · split <;> simp_all [eq_comm]

/-- A stimulus is refused exactly for its configuration or, failing that, for its tick. -/
theorem runStimulus_eq_refused {i : Instr} {s : State} {f : State → State} {r : Refusal} :
    runStimulus i s f = .refused r ↔
      (¬ s.cfg.WellFormed ∧ r = .badConfig s.cfg) ∨
      (s.cfg.WellFormed ∧ ¬ i.WellFormed s.cfg ∧ r = .tickRange (.record i)) := by
  unfold runStimulus fromLegal
  split
  · simp_all [eq_comm]
  · split
    · simp_all [eq_comm]
    · split <;> simp_all

/-- With nothing waiting, a legal state is held and the strobe is low. -/
theorem idle_eq_next {s s' : State} :
    idle s = .next s' ↔ s.cfg.WellFormed ∧ s.Legal ∧ s' = s.strobeLow := by
  unfold idle
  split
  · simp_all
  · rw [fromLegal_eq_next]
    simp_all

/-- With nothing waiting, a step faults exactly from an illegal state under a well-formed configuration. -/
theorem idle_eq_fault {s : State} {r : Fault} :
    idle s = .fault r ↔ s.cfg.WellFormed ∧ ¬ s.Legal ∧ r = .unreachableState s := by
  unfold idle fromLegal
  split
  · simp_all
  · split <;> simp_all [eq_comm]

/-- With nothing waiting, a step is refused exactly under an ill-formed configuration. -/
theorem idle_eq_refused {s : State} {r : Refusal} :
    idle s = .refused r ↔ ¬ s.cfg.WellFormed ∧ r = .badConfig s.cfg := by
  unfold idle fromLegal
  split
  · simp_all [eq_comm]
  · split <;> simp_all

/-! ### Legality depends on the registers and the configuration alone -/

/-- The strobe, the trace and the port do not enter the invariants. -/
theorem State.legal_congr {s t : State} (hc : s.cfg = t.cfg) (hh : s.hasLast = t.hasLast)
    (hf : s.inFrame = t.inFrame) (hb : s.bitCnt = t.bitCnt) (hs : s.shift = t.shift) :
    s.Legal ↔ t.Legal := by
  unfold State.Legal State.ShiftClear State.FrameIdle
  rw [hc, hh, hf, hb, hs]

@[simp] theorem State.strobeLow_legal (s : State) : s.strobeLow.Legal ↔ s.Legal :=
  State.legal_congr rfl rfl rfl rfl rfl

@[simp] theorem State.takeStimulus_legal (s : State) : s.takeStimulus.Legal ↔ s.Legal :=
  State.legal_congr rfl rfl rfl rfl rfl

/-- A state with an idle frame breaks no invariant. -/
theorem State.FrameIdle.legal {s : State} (h : s.FrameIdle) : s.Legal := by
  obtain ⟨-, hb, hs⟩ := id h
  exact ⟨by simp [State.ShiftClear, hs], fun _ _ => ⟨hb, hs⟩, fun _ => h⟩

/-- With no reference edge, a legal state has an idle frame (I4). -/
theorem State.Legal.frameIdle {s : State} (h : s.Legal) (hl : s.hasLast = false) : s.FrameIdle :=
  h.2.2 hl

theorem State.frameReset_frameIdle (s : State) : s.frameReset.FrameIdle := ⟨rfl, rfl, rfl⟩

/-- I2 bit by bit: every bit of SHIFT at position 31 - BIT_CNT or below is 0 (10_state.md R24). -/
theorem State.shiftClear_iff (s : State) :
    s.ShiftClear ↔ ∀ k, k < 32 - s.bitCnt.toNat → s.shift.getLsbD k = false := by
  unfold State.ShiftClear
  constructor
  · intro h k hk
    have := congrArg (Nat.testBit · k) h
    simpa [Nat.testBit_mod_two_pow, hk, BitVec.testBit_toNat] using this
  · intro h
    apply Nat.eq_of_testBit_eq
    intro k
    rw [Nat.testBit_mod_two_pow, Nat.zero_testBit]
    by_cases hk : k < 32 - s.bitCnt.toNat
    · simpa [hk, BitVec.testBit_toNat] using h k hk
    · simp [hk]

/-! ### Setting a bit -/

/-- Bit `j` of a word after bit `k` is set to `b`. -/
theorem getLsbD_setBit (w : Word) (k : Nat) (b : Bool) (j : Nat) (hk : k < 32) :
    (setBit w k b).getLsbD j = if j = k then b else w.getLsbD j := by
  have hone : (1#32 <<< k).getLsbD j = decide (j = k) := by
    rw [BitVec.getLsbD_shiftLeft]
    by_cases hj : j = k
    · simp [hj, hk]
    · by_cases hlt : j < k
      · simp [hj, hlt]
      · have : j - k ≠ 0 := by omega
        simp [hj, this, BitVec.getLsbD_one]
  by_cases hj : j < 32
  · cases b
    · rw [setBit, if_neg Bool.false_ne_true, BitVec.getLsbD_and, BitVec.getLsbD_not, hone]
      by_cases h : j = k <;> simp only [h, hj, hk, decide_true, decide_false] <;> simp
    · rw [setBit, if_pos rfl, BitVec.getLsbD_or, hone]
      by_cases h : j = k <;> simp [h]
  · have hne : j ≠ k := by omega
    simp [hne, BitVec.getLsbD_of_ge _ _ (Nat.le_of_not_lt hj)]

/-- Where the bit is 0 beforehand, setting it is an OR (42_frame_assembly.md R123). -/
theorem setBit_eq_or {w : Word} {k : Nat} (b : Bool) (hk : k < 32) (h : w.getLsbD k = false) :
    setBit w k b = w ||| (if b then 1#32 <<< k else 0#32) := by
  cases b
  · apply BitVec.eq_of_getLsbD_eq
    intro j _
    rw [getLsbD_setBit _ _ _ _ hk, if_neg Bool.false_ne_true, BitVec.or_zero]
    by_cases hj : j = k
    · rw [if_pos hj, hj, h]
    · rw [if_neg hj]
  · simp [setBit]

/-! ### The frame actions -/

/-- `AcceptBit` either completes the frame or enters the bit. -/
theorem State.acceptBit_cases (b : Bool) (s : State) :
    (s.bitCnt = 31#5 ∧ s.acceptBit b = (s.emit (frameEvent (s.shiftWith b))).frameReset) ∨
    (s.bitCnt ≠ 31#5 ∧ s.acceptBit b = { s with shift := s.shiftWith b, bitCnt := s.bitCnt + 1#5 }) := by
  unfold State.acceptBit
  split <;> simp_all

/-- Everything a class can do to the frame: nothing, reset it, open a new one, enter a bit, or complete it. -/
theorem State.classAction_cases (k : IntervalClass) (s : State) :
    s.classAction k = s ∨ s.classAction k = s.frameReset ∨
    (k = .leader ∧ s.classAction k = s.openFrame) ∨
    ∃ b, (k = if b then .one else .zero) ∧ (s.cfg.requireLeader = false ∨ s.inFrame = true) ∧
      s.classAction k = s.acceptBit b := by
  cases k
  case abort => exact .inr (.inl rfl)
  case leader => exact .inr (.inr (.inl ⟨rfl, rfl⟩))
  case noise => exact .inl rfl
  case zero =>
    by_cases h : (s.cfg.requireLeader && !s.inFrame) = true
    · exact .inl (by simp only [State.classAction, State.bitInterval, h, if_true])
    · refine .inr (.inr (.inr ⟨false, by simp, ?_, ?_⟩))
      · cases hr : s.cfg.requireLeader <;> cases hf : s.inFrame <;> simp_all
      · simp only [State.classAction, State.bitInterval, h]
        simp
  case one =>
    by_cases h : (s.cfg.requireLeader && !s.inFrame) = true
    · exact .inl (by simp only [State.classAction, State.bitInterval, h, if_true])
    · refine .inr (.inr (.inr ⟨true, by simp, ?_, ?_⟩))
      · cases hr : s.cfg.requireLeader <;> cases hf : s.inFrame <;> simp_all
      · simp only [State.classAction, State.bitInterval, h]
        simp

/-- What no class action changes. -/
theorem State.classAction_frame (k : IntervalClass) (s : State) :
    (s.classAction k).cfg = s.cfg ∧ (s.classAction k).hasLast = s.hasLast ∧
    (s.classAction k).tLast = s.tLast ∧ (s.classAction k).input = s.input := by
  rcases State.classAction_cases k s with h | h | ⟨-, h⟩ | ⟨b, -, -, h⟩
  · simp [h]
  · simp [h]
  · simp [h]
  · rcases State.acceptBit_cases b s with ⟨-, ha⟩ | ⟨-, ha⟩ <;> simp [h, ha]

/-- A falling edge sets the reference and the reference tick, whatever its class (41_stimulus_operations.md R101, R102). -/
theorem State.fallingEdge_frame (t : Tick) (s : State) :
    (s.fallingEdge t).cfg = s.cfg ∧ (s.fallingEdge t).hasLast = true ∧
    (s.fallingEdge t).tLast = t ∧ (s.fallingEdge t).input = s.input := by
  unfold State.fallingEdge
  split
  · next h =>
    obtain ⟨h1, h2, h3, h4⟩ :=
      State.classAction_frame (classify s.cfg (delta s.cfg s.tLast t)) { s with tLast := t }
    exact ⟨h1, h2.trans h, h3, h4⟩
  · exact ⟨rfl, rfl, rfl, rfl⟩

/-- A class action emits at most one event, and records exactly what it emits. -/
theorem State.classAction_event (k : IntervalClass) (s : State) :
    ((s.classAction k).evt = s.evt ∧ (s.classAction k).trace = s.trace) ∨
    ∃ f, (s.classAction k).evt = some (frameEvent f) ∧ (s.classAction k).trace = s.trace ++ [frameEvent f] := by
  rcases State.classAction_cases k s with h | h | ⟨-, h⟩ | ⟨b, -, -, h⟩
  · simp [h]
  · simp [h]
  · simp [h]
  · rcases State.acceptBit_cases b s with ⟨-, ha⟩ | ⟨-, ha⟩
    · exact .inr ⟨s.shiftWith b, by simp [h, ha], by simp [h, ha]⟩
    · exact .inl (by simp [h, ha])

/-! ### `exec` and `step` -/

/-- The effect of a stimulus on a state whose strobe is low. -/
def effectOf : Instr → State → State
  | .edgeF t => State.fallingEdge t
  | .edgeR _ => id
  | .timeout => State.timeoutEffect
  | .reset => State.resetEffect

/-- Every stimulus is its effect under the one guard. -/
theorem exec_eq_runStimulus (i : Instr) (s : State) : exec i s = runStimulus i s (effectOf i) := by
  cases i <;> rfl

/-- `exec` answers a next state exactly when the stimulus is ready. -/
theorem exec_eq_next {i : Instr} {s s' : State} :
    exec i s = .next s' ↔
      s.cfg.WellFormed ∧ i.WellFormed s.cfg ∧ s.Legal ∧ s' = effectOf i s.strobeLow := by
  rw [exec_eq_runStimulus, runStimulus_eq_next]

/-- What `step` does, by what waits at the input port. -/
theorem step_nil {s : State} (h : s.input = []) : step s = idle s := by
  simp [step, State.nextStimulus, h]

theorem step_cons {s : State} {x : Input} {rest : List Input} (h : s.input = x :: rest) :
    step s = match x.read s.cfg with
      | .error r => .refused r
      | .ok i => exec i s.takeStimulus := by
  simp only [step, State.nextStimulus, h, List.head?_cons, Option.map_some]
  cases x.read s.cfg <;> rfl

/-- Everything a step that answers a next state has done. -/
theorem step_eq_next {s s' : State} (h : step s = .next s') :
    (s.input = [] ∧ s.cfg.WellFormed ∧ s.Legal ∧ s' = s.strobeLow) ∨
    ∃ x rest i, s.input = x :: rest ∧ x.read s.cfg = .ok i ∧ exec i s.takeStimulus = .next s' := by
  cases hin : s.input with
  | nil =>
    rw [step_nil hin, idle_eq_next] at h
    exact .inl ⟨rfl, h⟩
  | cons x rest =>
    rw [step_cons hin] at h
    cases hr : x.read s.cfg with
    | error r => simp [hr] at h
    | ok i => exact .inr ⟨x, rest, i, rfl, hr, by simpa [hr] using h⟩

end Sys2Proof.Machine
end

