-- ==== Sys2Proof/Laws/PerInstr.lean ====
section
/-!
SUPPORT. Statements made of every stimulus as syntax, one lemma per constructor.
-/

namespace Sys2Proof.Laws

/-- The word of a stimulus matches its row of the opcode map under the row's mask (30_encoding.md R66). -/
def OpcodeRow.Statement (i : Instr) : Prop := encode i &&& i.rowMask = i.rowMatch

/-- The top byte of a word laid out with RSV = 0 is OP and POL. -/
theorem packWord_top_byte (op : BitVec 2) (pol : BitVec 1) (tick : BitVec 24) :
    packWord op pol tick &&& 0xFF000000#32 = (op ++ pol ++ 0#5) ++ 0#24 := by
  have hmask : ∀ k : Nat, k < 32 → (0xFF000000#32).getLsbD k = decide (24 ≤ k) := by decide
  apply BitVec.eq_of_getLsbD_eq
  intro k hk
  rw [BitVec.getLsbD_and, hmask k hk]
  show (((op ++ pol ++ 0#5) ++ tick : BitVec (2 + 1 + 5 + 24)).getLsbD k && decide (24 ≤ k)) =
    ((op ++ pol ++ 0#5) ++ 0#24 : BitVec (2 + 1 + 5 + 24)).getLsbD k
  rw [BitVec.getLsbD_append (x := op ++ pol ++ 0#5) (y := tick),
    BitVec.getLsbD_append (x := op ++ pol ++ 0#5) (y := 0#24)]
  by_cases h : k < 24
  · simp [h, show ¬ 24 ≤ k by omega]
  · simp [h, show 24 ≤ k by omega]

theorem OpcodeRow.edgeF (tick : Tick) : OpcodeRow.Statement (.edgeF tick) :=
  packWord_top_byte 0#2 0#1 _

theorem OpcodeRow.edgeR (tick : Tick) : OpcodeRow.Statement (.edgeR tick) :=
  packWord_top_byte 0#2 1#1 _

theorem OpcodeRow.timeout : OpcodeRow.Statement .timeout := rfl

theorem OpcodeRow.reset : OpcodeRow.Statement .reset := rfl

end Sys2Proof.Laws
end

