-- ==== Sys2Proof/Tests/Slice0.lean ====
section
/-!
SUPPORT. Tests of single operations and single steps, with the results that spec/ gives, and one witness for every statement
that has hypotheses.
-/

namespace Sys2Proof.Tests

open Sys2Proof.Machine

/-! ### Helpers -/

/-- A state under RC1 written as the vectors of 95_test_vectors.md section 2.2 write it. -/
def st (hasLast : Bool) (tLast : Tick) (inFrame : Bool) (bitCnt : BitVec 5) (shift : Word) : State :=
  { State.reset with hasLast := hasLast, tLast := tLast, inFrame := inFrame, bitCnt := bitCnt, shift := shift }

/-- RC1 with another `P_REQUIRE_LEADER`, and RC1 with another W. -/
def rc1Free : Config := { Config.rc1 with requireLeader := false }
def rc1Width (w : Nat) : Config := { Config.rc1 with tickWidth := w }

/-- The outcome is the next state `t`. -/
def nextIs (o : Host.Outcome State Fault Refusal) (t : State) : Bool :=
  match o with
  | .next s => decide (s = t)
  | _ => false

/-- The outcome is the refusal `r`. -/
def refusedIs (o : Host.Outcome State Fault Refusal) (r : Refusal) : Bool :=
  match o with
  | .refused q => decide (q = r)
  | _ => false

/-- The outcome is the fault UNREACHABLE_STATE. -/
def faults (o : Host.Outcome State Fault Refusal) : Bool :=
  match o with
  | .fault r => r.code == 16
  | _ => false

/-- A state that has emitted `e`. -/
def emitted (e : Event) (s : State) : State := { s with evt := some e, trace := [e] }

/-! ### Well-formedness: one ill-formed term for each check (00_scope.md R7, 20_memory.md R42) -/

theorem test_rc1_wellFormed : Config.rc1.WellFormed ∧ rc1Free.WellFormed ∧ (rc1Width 32).WellFormed := by decide

theorem test_illFormed_configurations_refused :
    ¬ (rc1Width 0).WellFormed ∧ ¬ (rc1Width 33).WellFormed ∧
    ¬ { Config.rc1 with zeroMin := 0 }.WellFormed ∧ ¬ { Config.rc1 with zeroMin := 1501 }.WellFormed ∧
    ¬ { Config.rc1 with oneMin := 1500 }.WellFormed ∧ ¬ { Config.rc1 with oneMin := 2701 }.WellFormed ∧
    ¬ { Config.rc1 with leadMin := 2700 }.WellFormed ∧ ¬ { Config.rc1 with leadMin := 14501 }.WellFormed ∧
    ¬ { Config.rc1 with leadMax := 15000 }.WellFormed ∧ ¬ { Config.rc1 with abort := 65536 }.WellFormed := by decide

theorem test_illFormed_stimuli_refused :
    ¬ (Instr.edgeF 65536#32).WellFormed Config.rc1 ∧ ¬ (Instr.edgeR 65536#32).WellFormed Config.rc1 ∧
    (Instr.edgeF 65535#32).WellFormed Config.rc1 ∧ Instr.timeout.WellFormed Config.rc1 := by decide

theorem test_wide_ticks_do_not_fit_the_word : ¬ (rc1Width 25).FitsWord ∧ (rc1Width 24).FitsWord := by decide

/-! ### Decoding: words written out bit by bit from 30_encoding.md R65 -/

/-- OP 00, POL 0, RSV 00000, TICK 1000. -/
theorem test_decode_edgeF :
    decode Config.rc1 0b00000000000000000000001111101000#32 = .ok (.edgeF 1000#32) := by decide

/-- OP 00, POL 1, RSV 00000, TICK 1000. -/
theorem test_decode_edgeR :
    decode Config.rc1 0b00100000000000000000001111101000#32 = .ok (.edgeR 1000#32) := by decide

/-- OP 01, every other bit 0. -/
theorem test_decode_timeout : decode Config.rc1 0b01000000000000000000000000000000#32 = .ok .timeout := by decide

/-- OP 10, every other bit 0. -/
theorem test_decode_reset : decode Config.rc1 0b10000000000000000000000000000000#32 = .ok .reset := by decide

/-- Vectors W6, W8 to W12 of 95_test_vectors.md. -/
theorem test_decode_refusals :
    decode Config.rc1 0x00010000#32 = .error .tickRange ∧ decode Config.rc1 0x1F000000#32 = .error .reservedBits ∧
    decode Config.rc1 0x60000000#32 = .error .reservedBits ∧ decode Config.rc1 0x80000001#32 = .error .reservedBits ∧
    decode Config.rc1 0xC0000000#32 = .error .reservedOp ∧ decode Config.rc1 0xFF0000FF#32 = .error .reservedOp := by
  decide

/-- The encoder on the words of the table in 30_encoding.md R68. -/
theorem test_encode_words :
    encode (.edgeF 15000#32) = 0x00003A98#32 ∧ encode (.edgeR 1000#32) = 0x200003E8#32 ∧
    encode .timeout = 0x40000000#32 ∧ encode .reset = 0x80000000#32 := by decide

/-- The match of every row of opcode_table.json runs as the first stimulus after reset. -/
theorem test_table_rows_run_after_reset :
    decodeTableWord 32 0x00000000 = some (.edgeF 0#32) ∧ decodeTableWord 32 0x20000000 = some (.edgeR 0#32) ∧
    decodeTableWord 32 0x40000000 = some .timeout ∧ decodeTableWord 32 0x80000000 = some .reset ∧
    nextIs (step (State.reset.withFetchWord 32 0x00000000)) (st true 0#32 false 0#5 0#32) = true ∧
    nextIs (step (State.reset.withFetchWord 32 0x20000000)) State.reset = true ∧
    nextIs (step (State.reset.withFetchWord 32 0x40000000)) State.reset = true ∧
    nextIs (step (State.reset.withFetchWord 32 0x80000000)) State.reset = true := by decide

/-! ### Operations -/

/-- Vectors V1 to V12: the classifier below the LEADER window. -/
theorem test_classify_low :
    [0, 799, 800, 1125, 1500, 1501, 1799, 1800, 2250, 2700, 2701, 11250].map (classify Config.rc1) =
      [.noise, .noise, .zero, .zero, .zero, .noise, .noise, .one, .one, .one, .noise, .noise] := by decide

/-- Vectors V13 to V21: the LEADER window and above. -/
theorem test_classify_high :
    [12499, 12500, 13500, 14500, 14501, 14999, 15000, 40000, 65535].map (classify Config.rc1) =
      [.noise, .leader, .leader, .leader, .noise, .noise, .abort, .abort, .abort] := by decide

/-- Vectors V22 to V24: the delta wraps. -/
theorem test_delta_wraps :
    delta Config.rc1 65000#32 464#32 = 1000 ∧ delta Config.rc1 65535#32 0#32 = 1 ∧
    delta Config.rc1 1000#32 999#32 = 65535 := by decide

/-- The class codes of 30_encoding.md R64, FIRST included. -/
theorem test_class_codes :
    [IntervalClass.zero, .one, .leader, .noise, .abort].map IntervalClass.code = [0, 1, 2, 3, 4] ∧
    edgeCode State.reset 5000#32 = 5 ∧ edgeCode (st true 5000#32 false 0#5 0#32) 18500#32 = 2 := by decide

/-- Vectors K1 to K12. -/
theorem test_valid :
    [0x00FF46B9#32, 0x00000000#32, 0xFFFF0000#32, 0x01FF46B8#32, 0x00FF4647#32, 0x55AA33CC#32, 0x10EF08F7#32,
      0x0F0F0F0F#32, 0x00FF00FF#32, 0xA5000000#32, 0xFF00FF00#32, 0x20DF10EF#32].map valid =
      [true, true, false, false, false, true, true, false, true, true, true, true] := by decide

/-- The worked frame word of 30_encoding.md R62, and its command byte. -/
theorem test_frame_word :
    frameOf 0x00#8 0xFF#8 0x46#8 0xB9#8 = 0x00FF46B9#32 ∧ frameCmd 0x00FF46B9#32 = 0x46#8 ∧
    frameByte 0x00FF46B9#32 1 = 0xFF#8 := by decide

/-- Vectors F7, F9, F11 and F14: a ZERO counts, byte 1 is entered, and the frame without a leader. -/
theorem test_frame_assembly :
    (State.classAction .zero (st true 0#32 true 1#5 0x80000000#32)) = st true 0#32 true 2#5 0x80000000#32 ∧
    (State.classAction .one (st true 0#32 true 8#5 0x00000000#32)) = st true 0#32 true 9#5 0x00800000#32 ∧
    (State.classAction .one { st true 0#32 false 0#5 0#32 with cfg := rc1Free }) =
      { st true 0#32 false 1#5 0x80000000#32 with cfg := rc1Free } ∧
    (State.classAction .zero { st true 0#32 false 31#5 0x7FFFFFFE#32 with cfg := rc1Free }) =
      emitted ⟨0x7FFFFFFE#32, 0xFF#8, false⟩ { st true 0#32 false 0#5 0#32 with cfg := rc1Free } := by decide

/-- RC1's nominal intervals (00_scope.md R9), TIMEOUT window (70_reset_and_hazards.md R165) and service bound (R166). -/
theorem test_nominal_intervals_and_bounds :
    nominalZero Config.rc1 = 1125 ∧ nominalOne Config.rc1 = 2250 ∧ nominalLead Config.rc1 = 13500 ∧
    nominalRepeat Config.rc1 = 11250 ∧ Config.rc1.TimeoutDue 15000 ∧ Config.rc1.TimeoutDue 65535 ∧
    ¬ Config.rc1.TimeoutDue 14999 ∧ ¬ Config.rc1.TimeoutDue 65536 ∧ Config.rc1.serviceBound = 800 := by decide

/-- The first lines of programs P1 and P2, expanded as their listings show. -/
theorem test_assemble :
    (assemble Config.rc1 [.plain .reset, .plain (.edgeF 1000#32), .frame 0x00#8 0x46#8]).take 4 =
      [.reset, .edgeF 1000#32, .edgeF 14500#32, .edgeF 15625#32] ∧
    assemble Config.rc1 [.plain (.edgeF 0#32), .lead, .plain (.edgeR 14062#32), .bit1, .gap 60000] =
      [.edgeF 0#32, .edgeF 13500#32, .edgeR 14062#32, .edgeF 15750#32, .edgeF 10214#32] := by decide

/-- The texts of 30_encoding.md R63 and R70. -/
theorem test_texts :
    eventText ⟨0x00FF46B9#32, 0x46#8, true⟩ = "EVT frame=0x00FF46B9 cmd=0x46 valid=1" ∧
    asmText (.edgeF 1000#32) = "EDGE.F 1000" := by decide

/-! ### Single steps -/

/-- Vector E8: the 32nd bit completes the frame and emits its event. -/
theorem test_edgeF_completes :
    nextIs (exec (.edgeF 2350#32) (st true 100#32 true 31#5 0x00FF46B8#32))
      (emitted ⟨0x00FF46B9#32, 0x46#8, true⟩ (st true 2350#32 false 0#5 0#32)) = true := by decide

/-- Step 33 of program P1: the tick wraps inside a frame, and the delta is ZERO. -/
theorem test_edgeF_wraps :
    nextIs (exec (.edgeF 714#32) (st true 65125#32 true 30#5 0x00FF46B8#32))
      (st true 714#32 true 31#5 0x00FF46B8#32) = true := by decide

/-- Vector E3: a rising edge changes nothing. -/
theorem test_edgeR_changes_nothing :
    nextIs (exec (.edgeR 19062#32) (st true 18500#32 true 0#5 0#32)) (st true 18500#32 true 0#5 0#32) = true := by decide

/-- Vector E4: TIMEOUT keeps T_LAST. -/
theorem test_timeout_keeps_tLast :
    nextIs (exec .timeout (st true 18500#32 true 3#5 0xA0000000#32)) (st false 18500#32 false 0#5 0#32) = true := by decide

/-- Vector E6: RESET in mid-frame. -/
theorem test_reset_midFrame :
    nextIs (exec .reset (st true 18500#32 true 3#5 0xA0000000#32)) State.reset = true := by decide

/-- Vectors W13 and W16 as steps, and a state that breaks I2 (10_state.md R25). -/
theorem test_stops :
    refusedIs (step ({ State.reset with cfg := { Config.rc1 with oneMin := 1500 } }.withFetchWord 32 1000))
      (.badConfig { Config.rc1 with oneMin := 1500 }) = true ∧
    refusedIs (step ({ State.reset with cfg := rc1Width 32 }.withFetchWord 32 1000)) (.wordTooNarrow 1000#32) = true ∧
    nextIs (step { State.reset with cfg := rc1Width 32, input := [.record (.edgeF 1000#32)] })
      { st true 1000#32 false 0#5 0#32 with cfg := rc1Width 32 } = true ∧
    faults (exec .reset (st true 0#32 true 3#5 0x00000001#32)) = true := by decide

/-! ### Witnesses: the hypotheses of each statement can be met, at the boundaries of its clauses -/

theorem witness_DecodeOfEncodeIsTheStimulus :
    (Config.rc1.WellFormed ∧ Config.rc1.FitsWord ∧ (Instr.edgeF 65535#32).WellFormed Config.rc1) ∧
    ((rc1Width 24).WellFormed ∧ (rc1Width 24).FitsWord ∧ (Instr.edgeR 16777215#32).WellFormed (rc1Width 24)) := by decide

theorem witness_EncodeOfDecodeIsTheWord :
    decode Config.rc1 0x0000FFFF#32 = .ok (.edgeF 65535#32) ∧ decode Config.rc1 0x2000FFFF#32 = .ok (.edgeR 65535#32) ∧
    decode Config.rc1 0x40000000#32 = .ok .timeout ∧ decode Config.rc1 0x80000000#32 = .ok .reset := by decide

theorem witness_OpcodeMapByMatchAndMask :
    (Config.rc1.WellFormed ∧ Config.rc1.FitsWord) ∧
    (0x01000000#32 &&& 0xFF000000#32 ≠ 0x00000000#32 ∧ 0x01000000#32 &&& 0xFF000000#32 ≠ 0x20000000#32 ∧
      (0x01000000#32 : Word) ≠ 0x40000000#32 ∧ (0x01000000#32 : Word) ≠ 0x80000000#32) := by decide

theorem witness_StepRunsTheNextStimulus :
    (State.reset.withFetchWord 32 1000).input = .word 1000#32 :: [] ∧
    decode Config.rc1 1000#32 = .ok (.edgeF 1000#32) ∧
    { State.reset with input := [.record .timeout] }.input = .record .timeout :: [] := by decide

/-- One word for each branch, at its edge. -/
theorem witness_FirstReasonThatHoldsIsReported :
    (∀ w : Word, { State.reset with input := [.word w] }.input = .word w :: []) ∧
    ¬ { Config.rc1 with abort := 65536 }.WellFormed ∧ ((rc1Width 25).WellFormed ∧ 24 < (rc1Width 25).tickWidth) ∧
    3 * 2 ^ 30 ≤ (0xC0000000#32).toNat ∧
    ((0x01000000#32).toNat < 2 ^ 30 ∧ (0x01000000#32).toNat / 2 ^ 24 % 2 ^ 5 ≠ 0) ∧
    (2 ^ 30 ≤ (0xBFFFFFFF#32).toNat ∧ (0xBFFFFFFF#32).toNat % 2 ^ 30 ≠ 0) ∧
    ((0x20010000#32).toNat < 2 ^ 30 ∧ 2 ^ 16 ≤ (0x20010000#32).toNat % 2 ^ 24) ∧
    (0x2000FFFF#32).toNat % 2 ^ 24 < 2 ^ 16 ∧
    { State.reset with input := [.record (.edgeR 65536#32)] }.input = .record (.edgeR 65536#32) :: [] ∧
    2 ^ 16 ≤ (Instr.edgeR 65536#32).tickValue ∧ (Instr.edgeR 65535#32).tickValue < 2 ^ 16 :=
  ⟨fun _ => rfl, by decide⟩

theorem witness_RefusalNamesItsReasonAndIsKept :
    (∃ t, Host.Core.run core 1 { State.reset with input := [.word 0x40000000#32, .word 0xC0000000#32] } = .next t ∧
      step t = .refused (.reservedOp 0xC0000000#32)) ∧
    step { State.reset with input := [.word 0x01010000#32] } = .refused (.reservedBits 0x01010000#32) ∧
    step { State.reset with input := [.word 0x20010000#32] } = .refused (.tickRange (.word 0x20010000#32)) ∧
    step { State.reset with input := [.record (.edgeF 65536#32)] } = .refused (.tickRange (.record (.edgeF 65536#32))) ∧
    step { State.resetWith (rc1Width 25) with input := [.word 0#32] } = .refused (.wordTooNarrow 0#32) ∧
    step (State.resetWith (rc1Width 13)) = .refused (.badConfig (rc1Width 13)) :=
  ⟨⟨_, rfl, rfl⟩, rfl, rfl, rfl, rfl, rfl⟩

/-- P_ABORT at 2^W - 1 is well-formed, at 2^W it is not. -/
theorem witness_OnlyAWellFormedConfigurationRuns :
    { Config.rc1 with abort := 65535 }.WellFormed ∧ ¬ { Config.rc1 with abort := 65536 }.WellFormed := by decide

theorem witness_RecordTickOutOfRangeIsRefused :
    State.reset.cfg.WellFormed ∧ 2 ^ State.reset.cfg.tickWidth ≤ (65536#32).toNat := by decide

theorem witness_IdleStepHoldsTheState :
    (st true 9#32 true 1#5 0x80000000#32).input = [] ∧ (st true 9#32 true 1#5 0x80000000#32).cfg.WellFormed ∧
    (st true 9#32 true 1#5 0x80000000#32).Legal := by decide

theorem witness_WordFormAndRecordFormAgree :
    State.reset.cfg.WellFormed ∧ State.reset.cfg.FitsWord ∧ (Instr.edgeF 65535#32).WellFormed State.reset.cfg := by decide

theorem witness_DeltaIsModularDifference :
    (65535#32).toNat < 2 ^ Config.rc1.tickWidth ∧ (0#32).toNat < 2 ^ Config.rc1.tickWidth := by decide

/-- Every clause of the order of tests, at a bound of its window. -/
theorem witness_ClassifierTestsInOrder :
    Config.rc1.abort ≤ 15000 ∧ (Config.rc1.leadMin ≤ 14500 ∧ 14500 ≤ Config.rc1.leadMax) ∧
    (Config.rc1.oneMin ≤ 1800 ∧ 1800 ≤ Config.rc1.oneMax) ∧ (Config.rc1.zeroMin ≤ 1500 ∧ 1500 ≤ Config.rc1.zeroMax) ∧
    ¬ (Config.rc1.zeroMin ≤ 799 ∧ 799 ≤ Config.rc1.zeroMax) := by decide

/-- The two ends of the deltas, both under a well-formed configuration. -/
theorem witness_ClassesPartitionTheDeltas :
    Config.rc1.WellFormed ∧ 0 < 2 ^ Config.rc1.tickWidth ∧ 65535 < 2 ^ Config.rc1.tickWidth := by decide

theorem witness_FirstEdgeOnlySetsTheReference :
    (State.reset.Ready (.edgeF 65535#32) ∧ State.reset.hasLast = false) ∧
    (st true 7#32 true 31#5 0xFFFFFFFE#32).Ready .reset ∧ (st true 7#32 true 31#5 0xFFFFFFFE#32).Ready .timeout := by decide

/-- The threshold itself, with a frame open and with none. -/
theorem witness_AbortResetsTheFrame :
    ((st true 20000#32 true 5#5 0xA0000000#32).Ready (.edgeF 35000#32) ∧
      Config.rc1.abort ≤ delta Config.rc1 20000#32 35000#32) ∧
    ((st true 20000#32 false 0#5 0#32).Ready (.edgeF 19999#32) ∧
      Config.rc1.abort ≤ delta Config.rc1 20000#32 19999#32 ∧ (st true 20000#32 false 0#5 0#32).FrameIdle) := by decide

theorem witness_LeaderOpensAnEmptyFrame :
    (st true 1000#32 true 7#5 0x5A000000#32).Ready (.edgeF 13500#32) ∧
    Config.rc1.InLeaderWindow (delta Config.rc1 1000#32 13500#32) ∧
    Config.rc1.InLeaderWindow (delta Config.rc1 1000#32 15500#32) := by decide

/-- A delta of 0 and one just below P_ABORT. -/
theorem witness_NoiseMovesOnlyTheReference :
    (st true 10000#32 true 4#5 0xF0000000#32).Ready (.edgeF 10000#32) ∧
    Config.rc1.InNoWindow (delta Config.rc1 10000#32 10000#32) ∧
    Config.rc1.InNoWindow (delta Config.rc1 10000#32 24999#32) := by decide

/-- The example of 42_frame_assembly.md R126. -/
theorem witness_BitBeforeALeaderIsIgnored :
    (st true 5000#32 false 0#5 0#32).Ready (.edgeF 7250#32) ∧ (st true 5000#32 false 0#5 0#32).hasLast = true ∧
    Config.rc1.InBitWindow true (delta Config.rc1 5000#32 7250#32) ∧
    Config.rc1.InBitWindow false (delta Config.rc1 5000#32 5800#32) ∧ Config.rc1.requireLeader = true ∧
    (st true 5000#32 false 0#5 0#32).inFrame = false := by decide

/-- Bit counts 0, 30 and 31, with a frame open and without the need of one. -/
theorem witness_AcceptedBitEntersTheFrame :
    ((st true 0#32 true 0#5 0#32).Ready (.edgeF 1800#32) ∧ (st true 0#32 true 0#5 0#32).BitsCount ∧
      Config.rc1.InBitWindow true (delta Config.rc1 0#32 1800#32) ∧ (0#5).toNat < 31) ∧
    ((st true 0#32 true 30#5 0xFFFFFFFC#32).Ready (.edgeF 1500#32) ∧ (30#5).toNat < 31) ∧
    ({ st true 0#32 false 31#5 0x7FFFFFFE#32 with cfg := rc1Free }.Ready (.edgeF 800#32) ∧
      { st true 0#32 false 31#5 0x7FFFFFFE#32 with cfg := rc1Free }.BitsCount ∧
      Config.InBitWindow rc1Free false (delta rc1Free 0#32 800#32) ∧ (31#5).toNat = 31) := by decide

theorem witness_CompletionLeavesAnIdleFrame :
    (st true 100#32 true 31#5 0x00FF46B8#32).Ready (.edgeF 2350#32) ∧ (st true 100#32 true 31#5 0x00FF46B8#32).hasLast = true ∧
    Config.rc1.InBitWindow true (delta Config.rc1 100#32 2350#32) ∧ (st true 100#32 true 31#5 0x00FF46B8#32).BitsCount ∧
    (31#5).toNat = 31 ∧ Config.rc1.requireLeader = true ∧ (3475#32).toNat < 2 ^ Config.rc1.tickWidth ∧
    Config.rc1.InBitWindow false (delta Config.rc1 2350#32 3475#32) := by decide

/-- A stimulus that emits and one that does not. -/
theorem witness_EventExactlyOnTheThirtySecondBit :
    (∃ t, exec (.edgeF 2350#32) (st true 100#32 true 31#5 0x00FF46B8#32) = .next t) ∧
    (∃ t, exec (.edgeF 500#32) (st true 100#32 true 31#5 0x00FF46B8#32) = .next t) := ⟨⟨_, rfl⟩, ⟨_, rfl⟩⟩

/-- The 32nd bit of 0xFFFF46B9, whose address and inverted address share bits. -/
theorem witness_ValidityIsTheWeakCheck :
    (st true 100#32 true 31#5 0xFFFF46B8#32).Ready (.edgeF 2350#32) ∧ (st true 100#32 true 31#5 0xFFFF46B8#32).hasLast = true ∧
    Config.rc1.InBitWindow true (delta Config.rc1 100#32 2350#32) ∧ (st true 100#32 true 31#5 0xFFFF46B8#32).BitsCount ∧
    (31#5).toNat = 31 ∧ 0xFFFF46B9#32 = (0xFFFF46B8#32 ||| if true then 1#32 else 0#32) ∧
    valid 0xFFFF46B9#32 = false := by decide

theorem witness_EventFieldsComeFromOneFrame :
    ∃ t, step { st true 100#32 true 31#5 0x00FF46B8#32 with input := [.record (.edgeF 2350#32)] } = .next t ∧
      t.evt = some ⟨0x00FF46B9#32, 0x46#8, true⟩ := ⟨_, rfl, by decide⟩

theorem witness_RisingEdgeHasNoEffect :
    (st true 1000#32 false 0#5 0#32).Ready (.edgeR 1562#32) ∧ State.reset.Ready (.edgeR 65535#32) ∧
    (16777215#32).toNat < 2 ^ 24 := by decide

/-- In mid-frame and on an idle block; the next edge has any tick. -/
theorem witness_TimeoutForgetsTheReference :
    (st true 18500#32 true 10#5 0xFF000000#32).Ready .timeout ∧
    ((st false 18500#32 false 0#5 0#32).Ready .timeout ∧ (st false 18500#32 false 0#5 0#32).hasLast = false) ∧
    (65535#32).toNat < 2 ^ Config.rc1.tickWidth := by decide

theorem witness_ResetGivesTheResetState : (st true 18500#32 true 3#5 0xA0000000#32).Ready .reset := by decide

theorem witness_ResetValuesOfTheRegisters : (st true 18500#32 true 3#5 0xA0000000#32).Ready .reset := by decide

/-- Every stimulus completes somewhere, with HAS_LAST = 0 and with HAS_LAST = 1. -/
theorem witness_WritersOfHasLast :
    (∃ t, exec (.edgeF 5#32) State.reset = .next t) ∧ (∃ t, exec (.edgeF 5#32) (st true 1#32 false 0#5 0#32) = .next t) ∧
    (∃ t, exec (.edgeR 5#32) State.reset = .next t) ∧ (∃ t, exec .timeout State.reset = .next t) ∧
    (∃ t, exec .reset State.reset = .next t) := ⟨⟨_, rfl⟩, ⟨_, rfl⟩, ⟨_, rfl⟩, ⟨_, rfl⟩, ⟨_, rfl⟩⟩

theorem witness_WritersAndReadersOfTLast :
    State.reset.hasLast = false ∧ ∃ t, exec (.edgeF 65535#32) State.reset = .next t := ⟨rfl, _, rfl⟩

/-- A LEADER opens a frame; an ABORT closes one. -/
theorem witness_OnlyALeaderOpensAFrame :
    (∃ t, exec (.edgeF 12500#32) (st true 0#32 false 0#5 0#32) = .next t ∧ t.inFrame = true) ∧
    (∃ t, exec (.edgeF 15000#32) (st true 0#32 true 1#5 0#32) = .next t ∧ t.inFrame = false) :=
  ⟨⟨_, rfl, by decide⟩, ⟨_, rfl, by decide⟩⟩

theorem witness_StepKeepsConfigurationAndOrder :
    (∃ t, step State.reset = .next t) ∧ ∃ t, step { State.reset with input := [.word 0x40000000#32, .word 0#32] } = .next t :=
  ⟨⟨_, rfl⟩, ⟨_, rfl⟩⟩

/-- A rising edge, TIMEOUT, RESET, a NOISE edge and an accepted bit. -/
theorem witness_StimuliLeaveTheRestUnchanged :
    (∃ t, exec (.edgeR 5#32) State.reset = .next t) ∧ (∃ t, exec .timeout State.reset = .next t) ∧
    (∃ t, exec .reset State.reset = .next t) ∧
    (∃ t, exec (.edgeF 5#32) (st true 0#32 true 2#5 0x80000000#32) = .next t ∧ classify Config.rc1 5 = .noise) ∧
    (∃ t, exec (.edgeF 1125#32) (st true 0#32 true 2#5 0x80000000#32) = .next t ∧ t.evt = none ∧
      classify Config.rc1 1125 = .zero) :=
  ⟨⟨_, rfl⟩, ⟨_, rfl⟩, ⟨_, rfl⟩, ⟨_, rfl, by decide⟩, ⟨_, rfl, by decide, by decide⟩⟩

theorem witness_NothingButTheFiveRegistersCarriesOver :
    ∃ t, step { st true 100#32 true 31#5 0x00FF46B8#32 with input := [.record (.edgeF 2350#32)] } = .next t := ⟨_, rfl⟩

theorem witness_InvariantHoldsAtReset : Config.rc1.WellFormed ∧ rc1Free.WellFormed := by decide

theorem witness_EveryStepKeepsTheInvariant :
    { st true 100#32 true 30#5 0x00FF46B8#32 with input := [.record (.edgeF 2350#32)] }.Inv ∧
    ∃ t, step { st true 100#32 true 30#5 0x00FF46B8#32 with input := [.record (.edgeF 2350#32)] } = .next t :=
  ⟨by decide, _, rfl⟩

theorem witness_GoodInputNeverStopsARun :
    { State.reset with input := [.word 0x0000FFFF#32, .record (.edgeR 0#32), .word 0x80000000#32] }.Inv ∧
    { State.reset with input := [.word 0x0000FFFF#32, .record (.edgeR 0#32), .word 0x80000000#32] }.InputAccepted := by
  decide

/-- States that break I2, I3 and I4 in turn. -/
theorem witness_OnlyUnreachableStatesFault :
    Config.rc1.WellFormed ∧ (Instr.edgeF 65535#32).WellFormed Config.rc1 ∧
    ¬ (st true 0#32 true 31#5 0x00000001#32).Legal ∧ ¬ (st true 0#32 false 1#5 0#32).Legal ∧
    ¬ (st false 0#32 true 0#5 0#32).Legal := by decide

/-- 32 ONE intervals, for the frame word of all ones: after a LEADER; and after none, where none is required. -/
theorem witness_EveryFrameWordRoundTrips :
    ((st true 0#32 false 0#5 0#32).Inv ∧ (st true 0#32 false 0#5 0#32).hasLast = true ∧
      (st true 0#32 false 0#5 0#32).StartsFrame [14500]) ∧
    ({ st true 0#32 false 0#5 0#32 with cfg := rc1Free }.Inv ∧
      { st true 0#32 false 0#5 0#32 with cfg := rc1Free }.StartsFrame []) ∧
    (List.replicate 32 2700).length = 32 ∧
    (∀ k (h : k < (List.replicate 32 2700).length),
      Config.rc1.InBitWindow ((0xFFFFFFFF#32).getLsbD (31 - k)) (List.replicate 32 2700)[k] ∧
      Config.InBitWindow rc1Free ((0xFFFFFFFF#32).getLsbD (31 - k)) (List.replicate 32 2700)[k]) ∧
    0x00FF46B9#32 = frameOf 0x00#8 (~~~0x00#8) 0x46#8 (~~~0x46#8) :=
  ⟨⟨by decide, rfl, .inl ⟨_, rfl, by decide⟩⟩, ⟨by decide, .inr (by decide)⟩, by decide, by decide, by decide⟩

/-- 31 accepted bits, the most that a frame holds: after a LEADER; and after none, where none is required. -/
theorem witness_AcceptedBitsSitMostSignificantFirst :
    ((st true 0#32 false 0#5 0#32).Inv ∧ (st true 0#32 false 0#5 0#32).hasLast = true ∧
      (st true 0#32 false 0#5 0#32).StartsFrame [12500]) ∧
    ({ st true 0#32 false 0#5 0#32 with cfg := rc1Free }.Inv ∧
      { st true 0#32 false 0#5 0#32 with cfg := rc1Free }.StartsFrame []) ∧
    (List.replicate 31 false).length < 32 ∧ (List.replicate 31 800).length = (List.replicate 31 false).length ∧
    (∀ k (h : k < (List.replicate 31 800).length) (h' : k < (List.replicate 31 false).length),
      Config.rc1.InBitWindow (List.replicate 31 false)[k] (List.replicate 31 800)[k] ∧
      Config.InBitWindow rc1Free (List.replicate 31 false)[k] (List.replicate 31 800)[k]) :=
  ⟨⟨by decide, rfl, .inl ⟨_, rfl, by decide⟩⟩, ⟨by decide, .inr (by decide)⟩, by decide, by decide, by decide⟩

theorem witness_NoEventBeforeEnoughEdges :
    (∃ t, execAll [.edgeF 0#32, .edgeF 13500#32, .edgeF 15750#32] (State.resetWith Config.rc1) = .next t) ∧
    fallingEdges [.edgeF 0#32, .edgeF 13500#32, .edgeF 15750#32] < 34 ∧
    (∃ t, execAll [.edgeF 0#32, .edgeF 1125#32] (State.resetWith rc1Free) = .next t) ∧
    fallingEdges [.edgeF 0#32, .edgeF 1125#32] < 33 := ⟨⟨_, rfl⟩, by decide, ⟨_, rfl⟩, by decide⟩

theorem witness_HiddenReferenceTickIsUnobservable :
    (∃ r t, exec .reset (st true 9#32 true 0#5 0#32) = .next r ∧ exec .timeout (st true 9#32 true 0#5 0#32) = .next t) ∧
    (st false 0#32 false 0#5 0#32).SameObservable (st false 9#32 false 0#5 0#32) ∧
    ∃ u, Host.Core.run core 2 (st false 0#32 false 0#5 0#32) = .next u := ⟨⟨_, _, rfl, rfl⟩, by decide, _, rfl⟩

theorem witness_TimerWrapAndLostEdges : Config.rc1.WellFormed ∧ (rc1Width 32).WellFormed := by decide

theorem witness_SameCycleStimuliInPriorityOrder :
    State.reset.cfg.WellFormed ∧ State.reset.Legal ∧ State.reset.input = [] ∧
    (st true 9#32 true 1#5 0x80000000#32).Ready (.edgeF 65535#32) ∧
    (some (true, 65535#32) = some (true, 65535#32) ∧ [Instr.edgeR 65535#32] = [.edgeR 65535#32]) := by decide

theorem witness_FrameLineIsALeaderAndThirtyTwoBits : Config.rc1.WellFormed ∧ rc1Free.WellFormed := by decide

theorem witness_ListingEmitsEdgesAtItsIntervals :
    (∀ u, Instr.timeout ≠ .edgeF u) ∧ Config.rc1.WellFormed ∧ (∀ i, AsmLine.repeatCode ≠ .plain i) ∧
    (∀ v, AsmLine.repeatCode ≠ .setTick v) := by
  refine ⟨?_, by decide, ?_, ?_⟩ <;> intro _ h <;> cases h

end Sys2Proof.Tests
end

section
/-!
PROOFS. When a stimulus or a step is refused as BAD_CONFIG (00_scope.md R7): exactly under an ill-formed configuration.
-/

namespace Sys2Proof

/-- The ten inequalities of 00_scope.md R7 in one row, with the modulus as a power of two. -/
theorem Config.wellFormed_iff (c : Config) :
    c.WellFormed ↔
      1 ≤ c.tickWidth ∧ c.tickWidth ≤ 32 ∧ 0 < c.zeroMin ∧ c.zeroMin ≤ c.zeroMax ∧
      c.zeroMax < c.oneMin ∧ c.oneMin ≤ c.oneMax ∧ c.oneMax < c.leadMin ∧
      c.leadMin ≤ c.leadMax ∧ c.leadMax < c.abort ∧ c.abort ≤ 2 ^ c.tickWidth - 1 :=
  and_assoc

/-- The fields of an EDGE word give two reasons for a refusal. -/
theorem decodeEdge_eq_error {c : Config} {w : Word} {r : Reject} (h : decodeEdge c w = .error r) :
    r = .reservedBits ∨ r = .tickRange := by
  unfold decodeEdge at h
  split_ifs at h
  · exact .inl (Except.error.inj h).symm
  · exact .inr (Except.error.inj h).symm

/-- The fields of a TIMEOUT or RESET word give one reason for a refusal. -/
theorem decodeStrobe_eq_error {i : Instr} {w : Word} {r : Reject} (h : decodeStrobe i w = .error r) :
    r = .reservedBits := by
  unfold decodeStrobe at h
  split_ifs at h
  exact (Except.error.inj h).symm

/-- The fields of a word give three reasons for a refusal; the configuration is none of them. -/
theorem decodeFields_eq_error {c : Config} {w : Word} {r : Reject} (h : decodeFields c w = .error r) :
    r = .reservedOp ∨ r = .reservedBits ∨ r = .tickRange := by
  unfold decodeFields at h
  split_ifs at h
  · exact .inl (Except.error.inj h).symm
  · exact .inr (decodeEdge_eq_error h)
  · exact .inr (.inl (decodeStrobe_eq_error h))
  · exact .inr (.inl (decodeStrobe_eq_error h))

/-- The decoder tests the configuration first (60_exceptions.md R147) and gives its reason for nothing else. -/
theorem decode_eq_badConfig {c : Config} {w : Word} :
    decode c w = .error .badConfig ↔ ¬ c.WellFormed := by
  refine ⟨fun h hw => ?_, fun h => if_pos h⟩
  rw [decode, if_neg (not_not.2 hw)] at h
  split_ifs at h
  · rcases decodeFields_eq_error h with h | h | h <;> cases h
  · cases h

end Sys2Proof

namespace Sys2Proof.Machine

/-- The reason BAD_CONFIG is reported as BAD_CONFIG with the configuration, and no other reason is. -/
theorem refusalOf_eq_badConfig {c c' : Config} {w : Word} {r : Reject} :
    refusalOf c w r = .badConfig c' ↔ r = .badConfig ∧ c' = c := by
  cases r <;> simp [refusalOf, eq_comm]

/-- Reading the input port refuses a configuration only where it is ill-formed. -/
theorem Input.read_eq_badConfig {c c' : Config} {x : Input} (h : x.read c = .error (.badConfig c')) :
    ¬ c.WellFormed ∧ c' = c := by
  cases x with
  | record i => cases h
  | word w =>
    simp only [Input.read] at h
    cases hd : decode c w with
    | ok i => simp [hd] at h
    | error r =>
      simp only [hd, Except.error.injEq, refusalOf_eq_badConfig] at h
      obtain ⟨rfl, hc⟩ := h
      exact ⟨decode_eq_badConfig.1 hd, hc⟩

/-- Under an ill-formed configuration the input port gives a record, or the refusal of the configuration. -/
theorem Input.read_of_not_wellFormed {c : Config} (x : Input) (h : ¬ c.WellFormed) :
    (∃ i, x.read c = .ok i) ∨ x.read c = .error (.badConfig c) := by
  cases x with
  | record i => exact .inl ⟨i, rfl⟩
  | word w => exact .inr (by simp only [Input.read, decode_eq_badConfig.2 h, refusalOf])

/-- A stimulus is refused as BAD_CONFIG exactly under an ill-formed configuration. -/
theorem exec_eq_badConfig {i : Instr} {s : State} {c : Config} :
    exec i s = .refused (.badConfig c) ↔ ¬ s.cfg.WellFormed ∧ c = s.cfg := by
  simp [exec_eq_runStimulus, runStimulus_eq_refused]

/-- A step is refused as BAD_CONFIG exactly under an ill-formed configuration, whatever waits at the input port. -/
theorem step_eq_badConfig {s : State} {c : Config} :
    step s = .refused (.badConfig c) ↔ ¬ s.cfg.WellFormed ∧ c = s.cfg := by
  cases hin : s.input with
  | nil => simp [step_nil hin, idle_eq_refused]
  | cons x rest =>
    rw [step_cons hin]
    cases hr : x.read s.cfg with
    | ok i => exact exec_eq_badConfig
    | error r =>
      constructor
      · intro h
        obtain rfl : r = .badConfig c := Host.Outcome.refused.inj h
        exact Input.read_eq_badConfig hr
      · rintro ⟨hw, rfl⟩
        rcases Input.read_of_not_wellFormed x hw with ⟨i, hi⟩ | he
        · simp [hi] at hr
        · rw [← Except.error.inj (he.symm.trans hr)]

/-- Settles O8: BAD_CONFIG is the answer of `exec` and of `step` exactly under an ill-formed configuration. -/
theorem onlyAWellFormedConfigurationRuns : Obligations.OnlyAWellFormedConfigurationRuns := by
  intro s
  split
  · next h =>
    have hw : s.cfg.WellFormed := s.cfg.wellFormed_iff.2 h
    exact ⟨fun _ _ hb => (exec_eq_badConfig.1 hb).1 hw, fun _ hb => (step_eq_badConfig.1 hb).1 hw⟩
  · next h =>
    have hw : ¬ s.cfg.WellFormed := mt s.cfg.wellFormed_iff.1 h
    exact ⟨fun _ => exec_eq_badConfig.2 ⟨hw, rfl⟩, step_eq_badConfig.2 ⟨hw, rfl⟩⟩

end Sys2Proof.Machine
end

section
/-!
PROOFS. Who writes HAS_LAST and T_LAST (10_state.md R21, R22), and that T_LAST is not read while HAS_LAST = 0.
-/

namespace Sys2Proof.Machine

/-! ### Writers -/

@[simp] theorem State.fallingEdge_hasLast (t : Tick) (s : State) : (s.fallingEdge t).hasLast = true :=
  (State.fallingEdge_frame t s).2.1

@[simp] theorem State.fallingEdge_tLast (t : Tick) (s : State) : (s.fallingEdge t).tLast = t :=
  (State.fallingEdge_frame t s).2.2.1

@[simp] theorem State.acceptBit_tLast (b : Bool) (s : State) : (s.acceptBit b).tLast = s.tLast := by
  rcases State.acceptBit_cases b s with ⟨-, h⟩ | ⟨-, h⟩
  · rw [h, State.frameReset_tLast, State.emit_tLast]
  · rw [h]

/-- Settles O31: the state that `exec` answers is the effect of the stimulus, and each effect has its value of HAS_LAST. -/
theorem writersOfHasLast : Obligations.WritersOfHasLast := by
  intro s s' i h
  obtain ⟨-, -, -, rfl⟩ := exec_eq_next.1 h
  refine ⟨?_, ?_, ?_, ?_⟩
  · rintro (rfl | rfl)
    · exact State.resetEffect_hasLast _
    · exact State.timeoutEffect_hasLast _
  · rintro t rfl -
    exact State.fallingEdge_hasLast t _
  · rintro t rfl hl
    exact (State.fallingEdge_hasLast t _).trans hl.symm
  · rintro t rfl
    exact State.strobeLow_hasLast s

/-! ### Readers -/

/-- T_LAST does not enter the invariants. -/
@[simp] theorem State.legal_with_tLast (s : State) (v : Tick) : { s with tLast := v }.Legal ↔ s.Legal :=
  State.legal_congr rfl rfl rfl rfl rfl

/-- The first edge writes the reference and does not read the old one (41_stimulus_operations.md R101). -/
theorem State.fallingEdge_of_hasLast_eq_false {s : State} (t : Tick) (h : s.hasLast = false) :
    s.fallingEdge t = { s with tLast := t, hasLast := true } := by
  simp [State.fallingEdge, h]

/-- While HAS_LAST = 0, the value of T_LAST changes nothing of a stimulus' effect but T_LAST itself. -/
theorem effectOf_with_tLast {s : State} (i : Instr) (v : Tick) (h : s.hasLast = false) :
    ∃ v', effectOf i { s with tLast := v } = { effectOf i s with tLast := v' } := by
  cases i with
  | edgeF t =>
    refine ⟨t, ?_⟩
    simp only [effectOf, State.fallingEdge_of_hasLast_eq_false t h,
      State.fallingEdge_of_hasLast_eq_false (s := { s with tLast := v }) t h]
  | edgeR t => exact ⟨v, rfl⟩
  | timeout => exact ⟨v, rfl⟩
  | reset => exact ⟨0#32, rfl⟩

/-- Settles O32: the writers by the effect of each stimulus, the readers by `effectOf_with_tLast` under the guard. -/
theorem writersAndReadersOfTLast : Obligations.WritersAndReadersOfTLast := by
  refine ⟨fun s s' i h => ?_, fun s b => ?_, fun s s' i v hl h => ?_⟩
  · obtain ⟨-, -, -, rfl⟩ := exec_eq_next.1 h
    cases i with
    | edgeF t => exact State.fallingEdge_tLast t _
    | edgeR t => exact State.strobeLow_tLast s
    | timeout => exact State.timeoutEffect_tLast _
    | reset => exact State.resetEffect_tLast _
  · exact ⟨s.frameReset_tLast, s.openFrame_tLast, s.acceptBit_tLast b⟩
  · obtain ⟨hc, hi, hs, rfl⟩ := exec_eq_next.1 h
    obtain ⟨v', hv⟩ := effectOf_with_tLast (s := s.strobeLow) i v hl
    exact ⟨v', exec_eq_next.2 ⟨hc, hi, (s.legal_with_tLast v).2 hs, hv.symm⟩⟩

end Sys2Proof.Machine
end

section
/-!
PROOFS. The opcode map (30_encoding.md R66): which words decode to which stimulus, by match and mask.
-/

namespace Sys2Proof

/-! ### What each part of the decoder accepts -/

/-- An EDGE word is accepted where RSV is 0 and TICK is in range; POL says which edge it is (30_encoding.md R65, R67). -/
theorem decodeEdge_eq_ok {c : Config} {w : Word} {i : Instr} :
    decodeEdge c w = .ok i ↔
      w.rsv = 0#5 ∧
      ((w.pol = false ∧ w.tickField.toNat < c.modulus ∧ i = .edgeF (w.tickField.setWidth 32)) ∨
        (w.pol = true ∧ w.tickField.toNat < c.modulus ∧ i = .edgeR (w.tickField.setWidth 32))) := by
  by_cases hrsv : w.rsv = 0#5
  · by_cases htick : w.tickField.toNat < c.modulus
    · cases hpol : w.pol <;> simp [decodeEdge, hrsv, htick, htick.not_ge, hpol, eq_comm]
    · simp [decodeEdge, hrsv, htick, not_lt.1 htick]
  · simp [decodeEdge, hrsv]

/-- A word with no operand is accepted where bits 29:0 are all 0 (30_encoding.md R67). -/
theorem decodeStrobe_eq_ok {i j : Instr} {w : Word} :
    decodeStrobe j w = .ok i ↔ w.belowOp = 0#30 ∧ i = j := by
  by_cases h : w.belowOp = 0#30 <;> simp [decodeStrobe, h, eq_comm]

/-- OP selects the part of the decoder that has to accept the word (30_encoding.md R66). -/
theorem decodeFields_eq_ok {c : Config} {w : Word} {i : Instr} :
    decodeFields c w = .ok i ↔
      (w.op = 0#2 ∧ decodeEdge c w = .ok i) ∨ (w.op = 1#2 ∧ decodeStrobe .timeout w = .ok i) ∨
      (w.op = 2#2 ∧ decodeStrobe .reset w = .ok i) := by
  have hop : ∀ op : BitVec 2, op = 0#2 ∨ op = 1#2 ∨ op = 2#2 ∨ op = 3#2 := by decide
  rcases hop w.op with h | h | h | h <;> simp [decodeFields, h]

/-- Under a configuration that the word form serves, the decoder only reads the fields. -/
theorem decode_eq_decodeFields {c : Config} (hc : c.WellFormed) (hf : c.FitsWord) (w : Word) :
    decode c w = decodeFields c w := by
  rw [decode, if_neg (not_not.2 hc), if_neg (not_not.2 hf)]

/-! ### The matches and masks of R66 as conditions on the fields -/

/-- The mask of the EDGE rows keeps the top byte. -/
theorem Word.and_topByteMask_toNat (w : Word) : (w &&& 0xFF000000#32).toNat = w.toNat / 2 ^ 24 * 2 ^ 24 := by
  have hmask : ∀ k : Nat, k < 32 → (0xFF000000#32).getLsbD k = decide (24 ≤ k) := by decide
  have hshift : w &&& 0xFF000000#32 = (w >>> 24) <<< 24 := by
    apply BitVec.eq_of_getLsbD_eq
    intro k hk
    rw [BitVec.getLsbD_and, hmask k hk]
    by_cases h : k < 24
    · simp [h, show ¬ 24 ≤ k by omega]
    · simp [h, hk, show 24 ≤ k by omega]
  have := w.isLt
  rw [hshift, BitVec.toNat_shiftLeft, BitVec.toNat_ushiftRight, Nat.shiftLeft_eq, Nat.shiftRight_eq_div_pow]
  omega

/-- The row of EDGE.F: OP, RSV and POL are 0. -/
theorem Word.and_topByteMask_eq_edgeF (w : Word) :
    w &&& 0xFF000000#32 = 0x00000000#32 ↔ w.op = 0#2 ∧ w.rsv = 0#5 ∧ w.pol = false := by
  simp only [← BitVec.toNat_inj, Word.and_topByteMask_toNat, Word.op_toNat, Word.rsv_toNat, Word.pol_eq,
    decide_eq_false_iff_not, BitVec.toNat_ofNat]
  omega

/-- The row of EDGE.R: OP and RSV are 0 and POL is 1. -/
theorem Word.and_topByteMask_eq_edgeR (w : Word) :
    w &&& 0xFF000000#32 = 0x20000000#32 ↔ w.op = 0#2 ∧ w.rsv = 0#5 ∧ w.pol = true := by
  simp only [← BitVec.toNat_inj, Word.and_topByteMask_toNat, Word.op_toNat, Word.rsv_toNat, Word.pol_eq,
    decide_eq_true_eq, BitVec.toNat_ofNat]
  omega

/-- The mask of the rows without operand keeps every bit. -/
theorem Word.and_fullMask (w : Word) : w &&& 0xFFFFFFFF#32 = w := BitVec.and_allOnes

/-- A row without operand fixes OP, and 0 in every bit below it. -/
theorem Word.eq_opOnly_iff (w : Word) (op : BitVec 2) :
    w = BitVec.ofNat 32 (op.toNat * 2 ^ 30) ↔ w.op = op ∧ w.belowOp = 0#30 := by
  simp only [← BitVec.toNat_inj, Word.op_toNat, Word.belowOp_toNat, BitVec.toNat_ofNat]
  omega

/-- The tick of an EDGE is TICK, zero-extended after the range check (30_encoding.md R65). -/
theorem Word.tickField_inRange_iff (w : Word) (t : Tick) (m : Nat) :
    w.tickField.toNat < m ∧ t = w.tickField.setWidth 32 ↔ t.toNat = w.toNat % 2 ^ 24 ∧ t.toNat < m := by
  rw [← BitVec.toNat_inj, BitVec.toNat_setWidth, Word.tickField_toNat]
  omega

/-! ### The opcode map, row by row -/

section
variable {c : Config} (hc : c.WellFormed) (hf : c.FitsWord) (w : Word)
include hc hf

/-- The row of EDGE.F, with the range check of R67. -/
theorem decode_eq_edgeF_iff (t : Tick) :
    decode c w = .ok (.edgeF t) ↔
      w &&& 0xFF000000#32 = 0x00000000#32 ∧ t.toNat = w.toNat % 2 ^ 24 ∧ t.toNat < 2 ^ c.tickWidth := by
  rw [decode_eq_decodeFields hc hf, Word.and_topByteMask_eq_edgeF, ← Config.modulus, ← Word.tickField_inRange_iff]
  simp [decodeFields_eq_ok, decodeEdge_eq_ok, decodeStrobe_eq_ok, and_assoc]

/-- The row of EDGE.R, with the range check of R67. -/
theorem decode_eq_edgeR_iff (t : Tick) :
    decode c w = .ok (.edgeR t) ↔
      w &&& 0xFF000000#32 = 0x20000000#32 ∧ t.toNat = w.toNat % 2 ^ 24 ∧ t.toNat < 2 ^ c.tickWidth := by
  rw [decode_eq_decodeFields hc hf, Word.and_topByteMask_eq_edgeR, ← Config.modulus, ← Word.tickField_inRange_iff]
  simp [decodeFields_eq_ok, decodeEdge_eq_ok, decodeStrobe_eq_ok, and_assoc]

/-- The row of TIMEOUT: one word. -/
theorem decode_eq_timeout_iff : decode c w = .ok .timeout ↔ w = 0x40000000#32 := by
  refine .trans ?_ (w.eq_opOnly_iff 1#2).symm
  rw [decode_eq_decodeFields hc hf]
  simp [decodeFields_eq_ok, decodeEdge_eq_ok, decodeStrobe_eq_ok]

/-- The row of RESET: one word. -/
theorem decode_eq_reset_iff : decode c w = .ok .reset ↔ w = 0x80000000#32 := by
  refine .trans ?_ (w.eq_opOnly_iff 2#2).symm
  rw [decode_eq_decodeFields hc hf]
  simp [decodeFields_eq_ok, decodeEdge_eq_ok, decodeStrobe_eq_ok]

end

/-- Settles O4: one lemma per row; a word that decodes matches the row of its stimulus, so one that matches none is
refused. -/
theorem opcodeMapByMatchAndMask : Obligations.OpcodeMapByMatchAndMask := by
  intro c w hc hf
  rw [w.and_fullMask]
  refine ⟨decode_eq_edgeF_iff hc hf w, decode_eq_edgeR_iff hc hf w, decode_eq_timeout_iff hc hf w,
    decode_eq_reset_iff hc hf w, fun hF hR hT hS => ?_⟩
  cases hd : decode c w with
  | error r => exact ⟨r, rfl⟩
  | ok i =>
    cases i with
    | edgeF t => exact absurd ((decode_eq_edgeF_iff hc hf w t).1 hd).1 hF
    | edgeR t => exact absurd ((decode_eq_edgeR_iff hc hf w t).1 hd).1 hR
    | timeout => exact absurd ((decode_eq_timeout_iff hc hf w).1 hd) hT
    | reset => exact absurd ((decode_eq_reset_iff hc hf w).1 hd) hS

end Sys2Proof
end

section
/-!
PROOFS. The classifier's tests one at a time (40_interval_classifier.md R81): what each answers where it is the first that
holds.
-/

namespace Sys2Proof.Machine

section
variable {c : Config} {d : Nat}

/-- The first test needs nothing of the windows. -/
theorem classify_eq_abort (ha : c.abort ≤ d) : classify c d = .abort := by
  rw [classify, if_pos ha]

/-- Below the threshold the leader window is tested first. -/
theorem classify_eq_leader (ha : ¬ c.abort ≤ d) (hl : c.leadMin ≤ d ∧ d ≤ c.leadMax) : classify c d = .leader := by
  rw [classify, if_neg ha, if_pos hl]

/-- The ONE window decides where the delta is outside the leader window. -/
theorem classify_eq_one (ha : ¬ c.abort ≤ d) (hl : ¬ (c.leadMin ≤ d ∧ d ≤ c.leadMax))
    (ho : c.oneMin ≤ d ∧ d ≤ c.oneMax) : classify c d = .one := by
  rw [classify, if_neg ha, if_neg hl, if_pos ho]

/-- The ZERO window decides where the delta is outside the other two. -/
theorem classify_eq_zero (ha : ¬ c.abort ≤ d) (hl : ¬ (c.leadMin ≤ d ∧ d ≤ c.leadMax))
    (ho : ¬ (c.oneMin ≤ d ∧ d ≤ c.oneMax)) (hz : c.zeroMin ≤ d ∧ d ≤ c.zeroMax) : classify c d = .zero := by
  rw [classify, if_neg ha, if_neg hl, if_neg ho, if_pos hz]

/-- NOISE is what no test claims. -/
theorem classify_eq_noise (ha : ¬ c.abort ≤ d) (hl : ¬ (c.leadMin ≤ d ∧ d ≤ c.leadMax))
    (ho : ¬ (c.oneMin ≤ d ∧ d ≤ c.oneMax)) (hz : ¬ (c.zeroMin ≤ d ∧ d ≤ c.zeroMax)) : classify c d = .noise := by
  rw [classify, if_neg ha, if_neg hl, if_neg ho, if_neg hz]

end

/-- Settles O13: one case per test, closed by that test's equation. -/
theorem classifierTestsInOrder : Obligations.ClassifierTestsInOrder := by
  intro c d
  split_ifs with ha hl ho hz
  · exact classify_eq_abort ha
  · exact classify_eq_leader ha hl
  · exact classify_eq_one ha hl ho
  · exact classify_eq_zero ha hl ho hz
  · exact classify_eq_noise ha hl ho hz

end Sys2Proof.Machine
end

section
/-!
PROOFS. The stimuli one at a time (41_stimulus_operations.md R101 to R106): a ready stimulus completes with its effect, and
what a first edge, a rising edge, TIMEOUT and RESET leave.
-/

namespace Sys2Proof

/-! ### The word of a rising edge -/

/-- A tick below 2^24 has a zero byte above TICK. -/
theorem Tick.eq_zero_append {t : Tick} (h : t.toNat < 2 ^ 24) : t = 0#8 ++ t.setWidth 24 := by
  apply BitVec.eq_of_toNat_eq
  refine .trans ?_ (BitVec.toNat_append 0#8 (t.setWidth 24)).symm
  simp only [BitVec.toNat_ofNat, Nat.zero_mod, Nat.zero_shiftLeft, Nat.zero_or, BitVec.toNat_setWidth]
  exact (Nat.mod_eq_of_lt h).symm

/-- The word of EDGE.R is its row's `match` with the tick in TICK (30_encoding.md R65, R66). -/
theorem encode_edgeR {t : Tick} (h : t.toNat < 2 ^ 24) : encode (.edgeR t) = 0x20000000#32 ||| t :=
  calc encode (.edgeR t)
    _ = 0x20#8 ++ t.setWidth 24 := rfl
    _ = (0x20#8 ||| 0#8) ++ (0#24 ||| t.setWidth 24) := by rw [BitVec.or_zero, BitVec.zero_or]
    _ = (0x20#8 ++ 0#24) ||| (0#8 ++ t.setWidth 24) := BitVec.or_append.symm
    _ = 0x20000000#32 ||| t := by rw [← Tick.eq_zero_append h]; rfl

end Sys2Proof

namespace Sys2Proof.Machine

/-! ### When a stimulus is ready -/

/-- A ready stimulus completes, and its effect starts with the strobe low. -/
theorem State.Ready.exec_eq {s : State} {i : Instr} (h : s.Ready i) :
    exec i s = .next (effectOf i s.strobeLow) := by
  obtain ⟨hc, hi, hs⟩ := h
  exact exec_eq_next.2 ⟨hc, hi, hs, rfl⟩

/-- With an idle frame, every well-formed stimulus is ready. -/
theorem State.FrameIdle.ready {s : State} {i : Instr} (h : s.FrameIdle) (hc : s.cfg.WellFormed)
    (hi : i.WellFormed s.cfg) : s.Ready i := ⟨hc, hi, h.legal⟩

theorem State.timeoutEffect_frameIdle (s : State) : s.timeoutEffect.FrameIdle := s.frameReset_frameIdle

theorem State.resetEffect_frameIdle (s : State) : s.resetEffect.FrameIdle := s.frameReset_frameIdle

/-! ### EDGE.F with HAS_LAST = 0 -/

/-- A ready first edge sets the reference and nothing else (41_stimulus_operations.md R101). -/
theorem exec_edgeF_of_hasLast_eq_false {s : State} {t : Tick} (h : s.Ready (.edgeF t)) (hl : s.hasLast = false) :
    exec (.edgeF t) s = .next { s with tLast := t, hasLast := true, evt := none } :=
  h.exec_eq.trans (congrArg _ (s.strobeLow.fallingEdge_of_hasLast_eq_false t hl))

/-- Settles O16: the first edge by its equation, RESET and TIMEOUT by what their effects leave in HAS_LAST. -/
theorem firstEdgeOnlySetsTheReference : Obligations.FirstEdgeOnlySetsTheReference :=
  ⟨fun _ _ h hl => exec_edgeF_of_hasLast_eq_false h hl,
    fun s h => ⟨_, h.exec_eq, s.strobeLow.resetEffect_hasLast⟩,
    fun s h => ⟨_, h.exec_eq, s.strobeLow.timeoutEffect_hasLast⟩⟩

/-! ### EDGE.R -/

/-- No stimulus reads the strobe of the stimulus before it; only a fault records it (60_exceptions.md R143), hence `hs`. -/
theorem exec_strobeLow {s : State} (i : Instr) (hs : s.Legal) : exec i s.strobeLow = exec i s := by
  rw [exec_eq_runStimulus, exec_eq_runStimulus]
  unfold runStimulus
  rw [fromLegal_of_legal _ hs, fromLegal_of_legal _ (s.strobeLow_legal.2 hs)]
  rfl

/-- Settles O27: the effect of EDGE.R is to lower the strobe, which no later stimulus reads. -/
theorem risingEdgeHasNoEffect : Obligations.RisingEdgeHasNoEffect := by
  refine ⟨fun s t h => ⟨h.exec_eq, fun u => ?_⟩, fun t ht => encode_edgeR ht⟩
  obtain ⟨-, -, hs⟩ := h
  exact exec_strobeLow (.edgeF u) hs

/-! ### TIMEOUT -/

/-- TIMEOUT changes nothing where HAS_LAST = 0: I4 says that the frame is idle (41_stimulus_operations.md R104). -/
theorem State.timeoutEffect_of_hasLast_eq_false {s : State} (hs : s.Legal) (hl : s.hasLast = false) :
    s.timeoutEffect = s := by
  obtain ⟨hf, hb, hsh⟩ := hs.frameIdle hl
  cases s
  simp_all [State.timeoutEffect, State.frameReset]

/-- Settles O28: TIMEOUT leaves an idle frame with HAS_LAST = 0, from which a second TIMEOUT and a first edge are ready. -/
theorem timeoutForgetsTheReference : Obligations.TimeoutForgetsTheReference := by
  refine ⟨rfl, fun s h => ?_⟩
  obtain ⟨hc, hi, hs⟩ := id h
  refine ⟨_, rfl, h.exec_eq, fun hl => ?_, ?_, fun t ht => ?_⟩
  · rw [h.exec_eq]
    exact congrArg _ (State.timeoutEffect_of_hasLast_eq_false (s.strobeLow_legal.2 hs) hl)
  · exact (s.strobeLow.timeoutEffect_frameIdle.ready hc hi).exec_eq
  · exact exec_edgeF_of_hasLast_eq_false (s.strobeLow.timeoutEffect_frameIdle.ready hc ht) rfl

/-! ### RESET -/

/-- Settles O29: RESET leaves an idle frame, from which a second RESET is ready and writes the same values. -/
theorem resetGivesTheResetState : Obligations.ResetGivesTheResetState := by
  refine ⟨rfl, fun s h => ⟨_, rfl, h.exec_eq, ?_⟩⟩
  obtain ⟨hc, hi, -⟩ := h
  exact (s.strobeLow.resetEffect_frameIdle.ready hc hi).exec_eq

end Sys2Proof.Machine
end

section
/-!
PROOFS. What an EDGE.F with HAS_LAST = 1 does to the frame (42_frame_assembly.md): the class of its delta decides, by the
window the delta lies in, and an event is emitted exactly where the class action completes a frame.
-/

namespace Sys2Proof.Machine

/-! ### The class of a delta that lies in a window (40_interval_classifier.md R84 to R86) -/

section
variable {c : Config} {d : Nat}

/-- Leader deltas are below `P_ABORT` (00_scope.md R7), so no earlier test takes them. -/
theorem classify_of_inLeaderWindow (hc : c.WellFormed) (h : c.InLeaderWindow d) : classify c d = .leader := by
  rw [Config.wellFormed_iff] at hc
  exact classify_eq_leader (by omega) h

/-- No test takes a delta below `P_ABORT` and in no window. -/
theorem classify_of_inNoWindow (h : c.InNoWindow d) : classify c d = .noise := by
  obtain ⟨ha, hl, hb⟩ := h
  exact classify_eq_noise (by omega) hl (hb true) (hb false)

/-- The windows are apart (00_scope.md R7), so the class names a bit exactly where the delta is in the window of that bit. -/
theorem classify_eq_bit_iff (hc : c.WellFormed) (b : Bool) :
    classify c d = (if b then .one else .zero) ↔ c.InBitWindow b d := by
  rw [Config.wellFormed_iff] at hc
  cases b with
  | false =>
    change classify c d = .zero ↔ c.zeroMin ≤ d ∧ d ≤ c.zeroMax
    constructor
    · intro h
      have hd : d < c.abort ∧ c.zeroMin ≤ d ∧ d ≤ c.zeroMax := by simpa [h] using classify_cases c d
      exact hd.2
    · intro h
      exact classify_eq_zero (by omega) (by omega) (by omega) h
  | true =>
    change classify c d = .one ↔ c.oneMin ≤ d ∧ d ≤ c.oneMax
    constructor
    · intro h
      have hd : d < c.abort ∧ c.oneMin ≤ d ∧ d ≤ c.oneMax := by simpa [h] using classify_cases c d
      exact hd.2
    · intro h
      exact classify_eq_one (by omega) (by omega) h

end

/-! ### The ZERO and ONE actions -/

/-- The classes ZERO and ONE act on the frame by the bit they stand for. -/
theorem State.classAction_bit (b : Bool) (s : State) :
    s.classAction (if b then .one else .zero) = s.bitInterval b := by
  cases b <;> rfl

/-- Where bits count, the bit is accepted (42_frame_assembly.md R123). -/
theorem State.bitInterval_of_bitsCount {s : State} (b : Bool) (h : s.BitsCount) : s.bitInterval b = s.acceptBit b := by
  apply if_neg
  rcases h with h | h <;> simp [h]

/-- Before a required leader, the bit is ignored (42_frame_assembly.md R126). -/
theorem State.bitInterval_of_noFrame {s : State} (b : Bool) (hr : s.cfg.requireLeader = true)
    (hf : s.inFrame = false) : s.bitInterval b = s := by
  apply if_pos
  simp [hr, hf]

/-- I2 keeps bit 31 - BIT_CNT of SHIFT at 0 until it is accepted, so writing it is an OR (42_frame_assembly.md R123). -/
theorem State.ShiftClear.shiftWith_eq {s : State} (h : s.ShiftClear) (b : Bool) :
    s.shiftWith b = s.shift ||| (if b then 1#32 <<< (31 - s.bitCnt.toNat) else 0#32) := by
  have hn := s.bitCnt.isLt
  exact setBit_eq_or b (by omega) (s.shiftClear_iff.1 h _ (by omega))

/-! ### When nothing is emitted -/

/-- A class action emits nothing unless the class is a bit, bits count, and 31 of them are held. -/
theorem State.classAction_quiet {k : IntervalClass} {s : State}
    (h : ∀ b : Bool, k = (if b then .one else .zero) → s.BitsCount → s.bitCnt ≠ 31#5) :
    (s.classAction k).evt = s.evt ∧ (s.classAction k).trace = s.trace := by
  rcases State.classAction_cases k s with hk | hk | ⟨-, hk⟩ | ⟨b, hb, hcount, hk⟩
  · simp [hk]
  · simp [hk]
  · simp [hk]
  · rcases State.acceptBit_cases b s with ⟨hn, -⟩ | ⟨-, ha⟩
    · exact absurd hn (h b hb hcount)
    · simp [hk, ha]

/-- EDGE.F `t` brings `b` as the 32nd accepted bit (42_frame_assembly.md R127). -/
def State.Completes (s : State) (t : Tick) (b : Bool) : Prop :=
  s.hasLast = true ∧ s.cfg.InBitWindow b (delta s.cfg s.tLast t) ∧ s.BitsCount ∧ s.bitCnt.toNat = 31

/-- A falling edge that brings no 32nd accepted bit emits nothing (42_frame_assembly.md R128). -/
theorem State.fallingEdge_quiet {s : State} {t : Tick} (hc : s.cfg.WellFormed) (h : ∀ b, ¬ s.Completes t b) :
    (s.fallingEdge t).evt = s.evt ∧ (s.fallingEdge t).trace = s.trace := by
  cases hl : s.hasLast with
  | false =>
    rw [State.fallingEdge_of_hasLast_eq_false t hl]
    exact ⟨rfl, rfl⟩
  | true =>
    rw [State.fallingEdge, if_pos hl]
    exact State.classAction_quiet fun b hk hcount hn =>
      h b ⟨hl, (classify_eq_bit_iff hc b).1 hk, hcount, congrArg BitVec.toNat hn⟩

/-! ### EDGE.F with HAS_LAST = 1 -/

section
variable {s : State} {t : Tick} (h : s.Ready (.edgeF t)) (hl : s.hasLast = true)
include h hl

/-- A ready edge after the first moves the reference, and then its class acts on the frame
(41_stimulus_operations.md R100, R102). -/
theorem exec_edgeF_of_class {k : IntervalClass} (hk : classify s.cfg (delta s.cfg s.tLast t) = k) :
    exec (.edgeF t) s = .next ({ s with tLast := t, evt := none }.classAction k) := by
  subst hk
  exact h.exec_eq.trans (congrArg _ (if_pos hl))

/-- A ready edge after the first, with a delta in the window of a bit. -/
theorem exec_edgeF_of_inBitWindow {b : Bool} (hw : s.cfg.InBitWindow b (delta s.cfg s.tLast t)) :
    exec (.edgeF t) s = .next ({ s with tLast := t, evt := none }.bitInterval b) := by
  rw [exec_edgeF_of_class h hl ((classify_eq_bit_iff h.1 b).2 hw), State.classAction_bit]

end

/-! ### The statements -/

/-- Settles O18: a delta in the leader window has the class LEADER, whose action opens the frame. -/
theorem leaderOpensAnEmptyFrame : Obligations.LeaderOpensAnEmptyFrame := fun _ _ h hl hw =>
  exec_edgeF_of_class h hl (classify_of_inLeaderWindow h.1 hw)

/-- Settles O19: a delta in no window has the class NOISE, which does nothing to the frame. -/
theorem noiseMovesOnlyTheReference : Obligations.NoiseMovesOnlyTheReference := fun _ _ h hl hw =>
  exec_edgeF_of_class h hl (classify_of_inNoWindow hw)

/-- Settles O20: a bit before a required leader is ignored. -/
theorem bitBeforeALeaderIsIgnored : Obligations.BitBeforeALeaderIsIgnored := by
  intro s t b h hl hw hr hf
  exact (exec_edgeF_of_inBitWindow h hl hw).trans (congrArg _ (State.bitInterval_of_noFrame b hr hf))

/-- Settles O21: where bits count the bit is accepted, and `AcceptBit` enters it or completes the frame by BIT_CNT; I2 makes
the write an OR. -/
theorem acceptedBitEntersTheFrame : Obligations.AcceptedBitEntersTheFrame := by
  intro s t b h hl hw hcount
  obtain ⟨-, -, hclear, -⟩ := id h
  have hexec : exec (.edgeF t) s = .next ({ s with tLast := t, evt := none }.acceptBit b) :=
    (exec_edgeF_of_inBitWindow h hl hw).trans (congrArg _ (State.bitInterval_of_bitsCount b hcount))
  have hshift : { s with tLast := t, evt := none }.shiftWith b =
      s.shift ||| (if b then 1#32 <<< (31 - s.bitCnt.toNat) else 0#32) := hclear.shiftWith_eq b
  rw [hexec]
  rcases State.acceptBit_cases b { s with tLast := t, evt := none } with ⟨hn, ha⟩ | ⟨hn, ha⟩
  · have hn : s.bitCnt.toNat = 31 := congrArg BitVec.toNat hn
    refine ⟨fun hlt => by omega, fun _ f hf => ?_⟩
    rw [hn] at hshift
    rw [ha, hshift, hf]
    rfl
  · refine ⟨fun _ => ?_, fun heq => absurd (BitVec.eq_of_toNat_eq heq) hn⟩
    rw [ha, hshift, BitVec.ofNat_add, BitVec.ofNat_toNat, BitVec.setWidth_eq]

/-- Settles O22: the completing edge leaves an idle frame (O21), in which a bit before a required leader is ignored (O20). -/
theorem completionLeavesAnIdleFrame : Obligations.CompletionLeavesAnIdleFrame := by
  intro s t b h hl hw hcount hn
  obtain ⟨hc, -, -⟩ := id h
  refine ⟨_, _, (acceptedBitEntersTheFrame s t b h hl hw hcount).2 hn _ rfl, rfl, rfl, rfl, rfl, rfl, hl, rfl,
    fun hr u b' hu hw' => ?_⟩
  exact bitBeforeALeaderIsIgnored _ u b' (State.FrameIdle.ready ⟨rfl, rfl, rfl⟩ hc hu) hl hw' hr rfl

/-- Settles O23: an EDGE.F that brings a 32nd accepted bit emits (O21); every other stimulus leaves the port and the trace as
the lowered strobe left them. -/
theorem eventExactlyOnTheThirtySecondBit : Obligations.EventExactlyOnTheThirtySecondBit := by
  intro s s' i h
  obtain ⟨hc, hi, hs, rfl⟩ := exec_eq_next.1 h
  cases i with
  | edgeR t => exact .inl ⟨rfl, rfl, nofun⟩
  | timeout => exact .inl ⟨rfl, rfl, nofun⟩
  | reset => exact .inl ⟨rfl, rfl, nofun⟩
  | edgeF t =>
    by_cases hbit : ∃ b, s.Completes t b
    · obtain ⟨b, hl, hw, hcount, hn⟩ := hbit
      have hexec := (acceptedBitEntersTheFrame s t b ⟨hc, hi, hs⟩ hl hw hcount).2 hn _ rfl
      rw [Host.Outcome.next.inj (h.symm.trans hexec)]
      exact .inr ⟨t, b, _, rfl, hl, hw, hcount, hn, rfl, rfl, rfl⟩
    · obtain ⟨hevt, htrace⟩ := State.fallingEdge_quiet (s := s.strobeLow) hc (fun b hb => hbit ⟨b, hb⟩)
      refine .inl ⟨hevt, htrace, fun u b hu hl hw hcount hn => hbit ⟨b, ?_⟩⟩
      cases hu
      exact ⟨hl, hw, hcount, hn⟩

/-- The check by the bytes of the frame word (42_frame_assembly.md R125). -/
theorem valid_iff (f : Word) :
    valid f = true ↔ frameAddr f &&& frameNaddr f = 0#8 ∧ frameCmd f &&& frameNcmd f = 0#8 := by
  rw [valid, Bool.and_eq_true, beq_iff_eq, beq_iff_eq]

/-- Settles O24: the check by `valid_iff`, the weak example by the fields of a frame, the delivery by O21, which emits the
completed frame whatever its flag is. -/
theorem validityIsTheWeakCheck : Obligations.ValidityIsTheWeakCheck := by
  refine ⟨valid_iff, fun k => ?_, fun s t b f h hl hw hcount hn hf hv => ?_⟩
  · rw [valid_iff, frameAddr_frameOf, frameNaddr_frameOf, frameCmd_frameOf, frameNcmd_frameOf]
    exact ⟨rfl, BitVec.and_not_self k⟩
  · exact ⟨_, (acceptedBitEntersTheFrame s t b h hl hw hcount).2 hn f hf, by rw [hv]⟩

end Sys2Proof.Machine
end

section
/-!
PROOFS. The reset values of the registers and of the output port (70_reset_and_hazards.md R160).
-/

namespace Sys2Proof.Machine

/-- The effect of RESET on a state whose strobe is low is the state in which a run starts, under the same configuration;
only the trace and the input port, which are no registers, stay. -/
theorem State.resetEffect_strobeLow (s : State) :
    s.strobeLow.resetEffect = { State.resetWith s.cfg with trace := s.trace, input := s.input } := rfl

/-- Settles O30: the start state by its fields; RESET by its effect, which is the start state but for trace and port. -/
theorem resetValuesOfTheRegisters : Obligations.ResetValuesOfTheRegisters := by
  refine ⟨fun c => ?_, fun s h => ⟨s.strobeLow.resetEffect, h.exec_eq, ?_⟩⟩
  · exact ⟨State.resetWith_hasLast c, State.resetWith_tLast c, State.resetWith_inFrame c,
      State.resetWith_bitCnt c, State.resetWith_shift c, State.resetWith_evt c⟩
  · rw [State.resetEffect_strobeLow]
    rfl

end Sys2Proof.Machine
end

section
/-!
PROOFS. Encoder and decoder undo each other (30_encoding.md R65, R66), so the word form and the record form of a stimulus
are read alike (20_memory.md R42).
-/

namespace Sys2Proof

/-! ### The word of a stimulus under the rows of the opcode map -/

/-- A word laid out from its fields carries its tick in bits 23:0. -/
theorem packWord_mod (op : BitVec 2) (pol : BitVec 1) (tick : BitVec 24) :
    (packWord op pol tick).toNat % 2 ^ 24 = tick.toNat := by
  change ((op ++ pol ++ 0#5) ++ tick).toNat % 2 ^ 24 = tick.toNat
  rw [← BitVec.toNat_setWidth, BitVec.setWidth_append_eq_right]

/-- A tick below 2^24 keeps its value in TICK. -/
theorem Tick.setWidth_toNat {t : Tick} (h : t.toNat < 2 ^ 24) : (t.setWidth 24).toNat = t.toNat := by
  rw [BitVec.toNat_setWidth, Nat.mod_eq_of_lt h]

/-- The top byte and TICK make a word up. -/
theorem Word.eq_of_topByte_of_tick {v w : Word} (htop : v &&& 0xFF000000#32 = w &&& 0xFF000000#32)
    (htick : v.toNat % 2 ^ 24 = w.toNat % 2 ^ 24) : v = w := by
  rw [← BitVec.toNat_inj, Word.and_topByteMask_toNat, Word.and_topByteMask_toNat] at htop
  apply BitVec.eq_of_toNat_eq
  omega

/-- In a configuration that the word form serves, every well-formed tick fits TICK. -/
theorem Config.FitsWord.tick_lt {c : Config} (hf : c.FitsWord) {n : Nat} (h : n < c.modulus) : n < 2 ^ 24 :=
  h.trans_le (Nat.pow_le_pow_right (by decide) hf)

/-- Settles O2: the word that `encode` lays out meets the row of its stimulus, which the decoder reads. -/
theorem decodeOfEncodeIsTheStimulus : Obligations.DecodeOfEncodeIsTheStimulus := by
  intro c i hc hf hi
  cases i with
  | edgeF t =>
    have htick := (packWord_mod 0#2 0#1 (t.setWidth 24)).trans (Tick.setWidth_toNat (hf.tick_lt hi))
    exact (decode_eq_edgeF_iff hc hf _ t).2 ⟨Laws.OpcodeRow.edgeF t, htick.symm, hi⟩
  | edgeR t =>
    have htick := (packWord_mod 0#2 1#1 (t.setWidth 24)).trans (Tick.setWidth_toNat (hf.tick_lt hi))
    exact (decode_eq_edgeR_iff hc hf _ t).2 ⟨Laws.OpcodeRow.edgeR t, htick.symm, hi⟩
  | timeout => exact (decode_eq_timeout_iff hc hf _).2 rfl
  | reset => exact (decode_eq_reset_iff hc hf _).2 rfl

/-- Settles O3: a word that decodes meets the row of its stimulus, and so does the word that `encode` lays out; the row and
the tick make the word up. -/
theorem encodeOfDecodeIsTheWord : Obligations.EncodeOfDecodeIsTheWord := by
  intro c w i h
  obtain ⟨hc, hf, -⟩ := decode_eq_ok h
  cases i with
  | edgeF t =>
    obtain ⟨hrow, htick, hi⟩ := (decode_eq_edgeF_iff hc hf w t).1 h
    have hpack := (packWord_mod 0#2 0#1 (t.setWidth 24)).trans (Tick.setWidth_toNat (hf.tick_lt hi))
    exact ⟨Word.eq_of_topByte_of_tick ((Laws.OpcodeRow.edgeF t).trans hrow.symm) (hpack.trans htick), hi⟩
  | edgeR t =>
    obtain ⟨hrow, htick, hi⟩ := (decode_eq_edgeR_iff hc hf w t).1 h
    have hpack := (packWord_mod 0#2 1#1 (t.setWidth 24)).trans (Tick.setWidth_toNat (hf.tick_lt hi))
    exact ⟨Word.eq_of_topByte_of_tick ((Laws.OpcodeRow.edgeR t).trans hrow.symm) (hpack.trans htick), hi⟩
  | timeout => exact ⟨((decode_eq_timeout_iff hc hf w).1 h).symm, c.modulus_pos⟩
  | reset => exact ⟨((decode_eq_reset_iff hc hf w).1 h).symm, c.modulus_pos⟩

/-- Settles O1: the decoder on the fifteen words. -/
theorem specWordsReadAsWritten : Obligations.SpecWordsReadAsWritten := by
  unfold Obligations.SpecWordsReadAsWritten
  decide

end Sys2Proof

namespace Sys2Proof.Machine

/-! ### The item at the head of the input port -/

/-- A word that decodes is read as its stimulus. -/
theorem Input.read_word_ok {c : Config} {w : Word} {i : Instr} (h : decode c w = .ok i) :
    (Input.word w).read c = .ok i := by
  simp only [Input.read, h]

/-- A word that does not decode is read as its refusal. -/
theorem Input.read_word_error {c : Config} {w : Word} {r : Reject} (h : decode c w = .error r) :
    (Input.word w).read c = .error (refusalOf c w r) := by
  simp only [Input.read, h]

/-- A step executes the stimulus that is read at the head of the port, with the item taken off. -/
theorem step_of_read_ok {s : State} {x : Input} {rest : List Input} {i : Instr} (hin : s.input = x :: rest)
    (hr : x.read s.cfg = .ok i) : step s = exec i { s with input := rest } := by
  rw [step_cons hin, hr, State.takeStimulus, hin, List.tail_cons]

/-- A step refuses what is read as a refusal at the head of the port. -/
theorem step_of_read_error {s : State} {x : Input} {rest : List Input} {r : Refusal} (hin : s.input = x :: rest)
    (hr : x.read s.cfg = .error r) : step s = .refused r := by
  rw [step_cons hin, hr]

/-- Settles O5: a word that decodes and a record are read as their stimulus. -/
theorem stepRunsTheNextStimulus : Obligations.StepRunsTheNextStimulus :=
  ⟨fun _ _ _ _ hin hd => step_of_read_ok hin (Input.read_word_ok hd), fun _ _ _ hin => step_of_read_ok hin rfl⟩

/-- Settles O11: the word of a stimulus decodes to it (O2), so both forms are read as that stimulus. -/
theorem wordFormAndRecordFormAgree : Obligations.WordFormAndRecordFormAgree := by
  intro s i rest hc hf hi
  have hword := Input.read_word_ok (decodeOfEncodeIsTheStimulus s.cfg i hc hf hi)
  exact (step_of_read_ok (s := { s with input := .word (encode i) :: rest }) rfl hword).trans
    (step_of_read_ok (s := { s with input := .record i :: rest }) rfl rfl).symm

end Sys2Proof.Machine
end

section
/-!
PROOFS. What every step keeps: the configuration and the order at the ports (20_memory.md R51), the source of an event
(30_encoding.md R63), and the invariants (10_state.md R25).
-/

namespace Sys2Proof.Machine

/-! ### Every effect: configuration, port and event -/

@[simp] theorem effectOf_cfg (i : Instr) (s : State) : (effectOf i s).cfg = s.cfg := by
  cases i with
  | edgeF t => exact (State.fallingEdge_frame t s).1
  | edgeR t => rfl
  | timeout => rfl
  | reset => rfl

@[simp] theorem effectOf_input (i : Instr) (s : State) : (effectOf i s).input = s.input := by
  cases i with
  | edgeF t => exact (State.fallingEdge_frame t s).2.2.2
  | edgeR t => rfl
  | timeout => rfl
  | reset => rfl

/-- An effect emits at most one event, that of a frame word, and records exactly what it emits. -/
theorem effectOf_event (i : Instr) (s : State) :
    ((effectOf i s).evt = s.evt ∧ (effectOf i s).trace = s.trace) ∨
    ∃ f, (effectOf i s).evt = some (frameEvent f) ∧ (effectOf i s).trace = s.trace ++ [frameEvent f] := by
  cases i with
  | edgeF t =>
    cases hl : s.hasLast with
    | false =>
      refine .inl ?_
      rw [effectOf, State.fallingEdge_of_hasLast_eq_false t hl]
      exact ⟨rfl, rfl⟩
    | true =>
      rw [effectOf, State.fallingEdge, if_pos hl]
      exact State.classAction_event _ { s with tLast := t }
  | edgeR t => exact .inl ⟨rfl, rfl⟩
  | timeout => exact .inl ⟨rfl, rfl⟩
  | reset => exact .inl ⟨rfl, rfl⟩

/-! ### What a step does to configuration, ports and trace -/

/-- A stimulus that completes ends with the strobe low and the trace as it was, or emits and records one frame's event. -/
theorem exec_event {i : Instr} {s s' : State} (h : exec i s = .next s') :
    (s'.evt = none ∧ s'.trace = s.trace) ∨
    ∃ f, s'.evt = some (frameEvent f) ∧ s'.trace = s.trace ++ [frameEvent f] := by
  obtain ⟨-, -, -, rfl⟩ := exec_eq_next.1 h
  exact effectOf_event i s.strobeLow

/-- The same of a step, whatever waits at the port. -/
theorem step_event {s s' : State} (h : step s = .next s') :
    (s'.evt = none ∧ s'.trace = s.trace) ∨
    ∃ f, s'.evt = some (frameEvent f) ∧ s'.trace = s.trace ++ [frameEvent f] := by
  rcases step_eq_next h with ⟨-, -, -, rfl⟩ | ⟨x, rest, i, -, -, hexec⟩
  · exact .inl ⟨rfl, rfl⟩
  · exact exec_event (s := s.takeStimulus) hexec

/-- A stimulus that completes leaves the configuration and the input port. -/
theorem exec_cfg_input {i : Instr} {s s' : State} (h : exec i s = .next s') :
    s'.cfg = s.cfg ∧ s'.input = s.input := by
  obtain ⟨-, -, -, rfl⟩ := exec_eq_next.1 h
  exact ⟨effectOf_cfg i _, effectOf_input i _⟩

/-- A step takes the head off the port, where there is one, and leaves the configuration. -/
theorem step_cfg_input {s s' : State} (h : step s = .next s') : s'.cfg = s.cfg ∧ s'.input = s.input.tail := by
  rcases step_eq_next h with ⟨hin, -, -, rfl⟩ | ⟨x, rest, i, -, -, hexec⟩
  · exact ⟨rfl, by rw [State.strobeLow_input, hin, List.tail_nil]⟩
  · exact exec_cfg_input hexec

/-- Settles O34: by `step_cfg_input`, and the trace in the two cases of `step_event`. -/
theorem stepKeepsConfigurationAndOrder : Obligations.StepKeepsConfigurationAndOrder := by
  intro s s' h
  obtain ⟨hcfg, hinput⟩ := step_cfg_input h
  refine ⟨hcfg, hinput, ?_⟩
  rcases step_event h with ⟨hevt, htrace⟩ | ⟨f, hevt, htrace⟩
  · rw [hevt, htrace, Option.toList_none, List.append_nil]
  · rw [hevt, htrace, Option.toList_some]

/-! ### The fields of an event -/

/-- The four fields of a frame word make it up (30_encoding.md R60). -/
theorem frameOf_fields (f : Word) : frameOf (frameAddr f) (frameNaddr f) (frameCmd f) (frameNcmd f) = f := by
  apply BitVec.eq_of_getLsbD_eq
  intro k hk
  rw [getLsbD_frameOf, frameAddr, frameNaddr, frameCmd, frameNcmd]
  simp only [BitVec.getLsbD_extractLsb']
  split_ifs with h8 h16 h24
  · simp [h8]
  · simp [show k - 8 < 8 by omega, show 8 + (k - 8) = k by omega]
  · simp [show k - 16 < 8 by omega, show 16 + (k - 16) = k by omega]
  · simp [show k - 24 < 8 by omega, show 24 + (k - 24) = k by omega]

/-- Settles O26: what a step emits is the event of a frame word, which its fields make up. -/
theorem eventFieldsComeFromOneFrame : Obligations.EventFieldsComeFromOneFrame := by
  refine ⟨fun s s' e h he => ?_, frameOf_fields, fun f => ⟨rfl, rfl, rfl, rfl⟩⟩
  rcases step_event h with ⟨hevt, -⟩ | ⟨f, hevt, -⟩
  · rw [hevt] at he
    cases he
  · obtain rfl : frameEvent f = e := Option.some.inj (hevt.symm.trans he)
    exact ⟨rfl, rfl⟩

/-! ### Every effect keeps the invariants I1 to I4 -/

/-- BIT_CNT does not wrap below 31 bits. -/
theorem State.bitCnt_succ_toNat {s : State} (h : s.bitCnt ≠ 31#5) : (s.bitCnt + 1#5).toNat = s.bitCnt.toNat + 1 := by
  have hlt := s.bitCnt.isLt
  have hne : s.bitCnt.toNat ≠ 31 := fun he => h (BitVec.eq_of_toNat_eq he)
  rw [BitVec.toNat_add, BitVec.toNat_ofNat]
  omega

/-- Entering a bit writes position 31 - BIT_CNT of SHIFT and no other. -/
theorem State.getLsbD_shiftWith (s : State) (b : Bool) (k : Nat) :
    (s.shiftWith b).getLsbD k = if k = 31 - s.bitCnt.toNat then b else s.shift.getLsbD k :=
  getLsbD_setBit s.shift _ b k (by omega)

/-- An empty open frame breaks no invariant once there is a reference edge. -/
theorem State.openFrame_legal {s : State} (hl : s.hasLast = true) : s.openFrame.Legal := by
  refine ⟨?_, fun _ hf => ?_, fun hl' => ?_⟩
  · simp [State.ShiftClear]
  · cases hf
  · cases hl.symm.trans hl'

/-- Accepting a bit where bits count keeps the invariants: I2 loses the position that is written, and I3 and I4 do not
speak of the state. -/
theorem State.acceptBit_legal {s : State} (b : Bool) (h : s.Legal) (hl : s.hasLast = true) (hcount : s.BitsCount) :
    (s.acceptBit b).Legal := by
  obtain ⟨hclear, -, -⟩ := h
  rcases State.acceptBit_cases b s with ⟨-, ha⟩ | ⟨hn, ha⟩
  · rw [ha]
    exact (State.frameReset_frameIdle _).legal
  · rw [ha]
    refine ⟨(State.shiftClear_iff _).2 fun k hk => ?_, fun hr hf => ?_, fun hl' => ?_⟩
    · rw [State.bitCnt_succ_toNat hn] at hk
      rw [State.getLsbD_shiftWith, if_neg (by omega)]
      exact s.shiftClear_iff.1 hclear k (by omega)
    · rcases hcount with hr' | hf'
      · cases hr.symm.trans hr'
      · cases hf.symm.trans hf'
    · cases hl.symm.trans hl'

/-- No class action breaks an invariant once there is a reference edge. -/
theorem State.classAction_legal {s : State} (k : IntervalClass) (h : s.Legal) (hl : s.hasLast = true) :
    (s.classAction k).Legal := by
  rcases State.classAction_cases k s with hk | hk | ⟨-, hk⟩ | ⟨b, -, hcount, hk⟩
  · rwa [hk]
  · rw [hk]
    exact s.frameReset_frameIdle.legal
  · rw [hk]
    exact State.openFrame_legal hl
  · rw [hk]
    exact State.acceptBit_legal b h hl hcount

/-- No effect breaks an invariant. -/
theorem effectOf_legal {s : State} (i : Instr) (h : s.Legal) : (effectOf i s).Legal := by
  cases i with
  | edgeF t =>
    cases hl : s.hasLast with
    | false =>
      rw [effectOf, State.fallingEdge_of_hasLast_eq_false t hl]
      have hidle : { s with tLast := t, hasLast := true }.FrameIdle := h.frameIdle hl
      exact hidle.legal
    | true =>
      rw [effectOf, State.fallingEdge, if_pos hl]
      exact State.classAction_legal _ ((s.legal_with_tLast t).2 h) hl
  | edgeR t => exact h
  | timeout => exact s.timeoutEffect_frameIdle.legal
  | reset => exact s.resetEffect_frameIdle.legal

/-- A stimulus that completes keeps the invariants. -/
theorem exec_legal {i : Instr} {s s' : State} (h : exec i s = .next s') : s'.Legal := by
  obtain ⟨-, -, hs, rfl⟩ := exec_eq_next.1 h
  exact effectOf_legal i (s.strobeLow_legal.2 hs)

/-! ### The whole invariant -/

/-- The input port does not enter the invariant. -/
theorem State.Inv.takeStimulus {s : State} (h : s.Inv) : s.takeStimulus.Inv := h

/-- Lowering the strobe keeps the invariant: no event is on the port. -/
theorem State.Inv.strobeLow {s : State} (h : s.Inv) : s.strobeLow.Inv := by
  obtain ⟨hc, hfit, hs, htrace, -⟩ := h
  exact ⟨hc, hfit, s.strobeLow_legal.2 hs, htrace, nofun⟩

/-- A stimulus that completes leaves a W-bit T_LAST. -/
theorem exec_tickFits {i : Instr} {s s' : State} (hfit : s.TickFits) (h : exec i s = .next s') : s'.TickFits := by
  have htick := writersAndReadersOfTLast.1 s s' i h
  obtain ⟨-, hi, -, -⟩ := exec_eq_next.1 h
  rw [State.TickFits, htick, (exec_cfg_input h).1]
  cases i with
  | edgeF t => exact hi
  | edgeR t => exact hfit
  | timeout => exact hfit
  | reset => exact s.cfg.modulus_pos

/-- A stimulus that completes keeps the invariant. -/
theorem exec_inv {i : Instr} {s s' : State} (hinv : s.Inv) (h : exec i s = .next s') : s'.Inv := by
  obtain ⟨hc, hfit, -, htrace, -⟩ := hinv
  refine ⟨(exec_cfg_input h).1 ▸ hc, exec_tickFits hfit h, exec_legal h, ?_⟩
  rcases exec_event h with ⟨hevt, htr⟩ | ⟨f, hevt, htr⟩
  · rw [hevt, htr]
    exact ⟨htrace, nofun⟩
  · rw [hevt, htr]
    refine ⟨fun e he => ?_, fun e he => ?_⟩
    · rcases List.mem_append.1 he with he | he
      · exact htrace e he
      · rw [List.mem_singleton.1 he]
        rfl
    · rw [← Option.some.inj he]
      rfl

/-- Settles O39: an idle step lowers the strobe, and any other step is `exec` once the item is off the port. -/
theorem everyStepKeepsTheInvariant : Obligations.EveryStepKeepsTheInvariant := by
  intro s s' hinv h
  rcases step_eq_next h with ⟨-, -, -, rfl⟩ | ⟨x, rest, i, -, -, hexec⟩
  · exact hinv.strobeLow
  · exact exec_inv hinv.takeStimulus hexec

/-- Nothing is open and nothing is held right after reset. -/
theorem State.resetWith_frameIdle (c : Config) : (State.resetWith c).FrameIdle := ⟨rfl, rfl, rfl⟩

/-- A run under a well-formed configuration starts in the invariant, whatever waits at the port. -/
theorem State.resetWith_inv {c : Config} (hc : c.WellFormed) (input : List Input) :
    { State.resetWith c with input := input }.Inv :=
  ⟨hc, c.modulus_pos, (State.resetWith_frameIdle c).legal, nofun, nofun⟩

/-- Settles O38: the start state, of which `State.reset` is the one under RC1. -/
theorem invariantHoldsAtReset : Obligations.InvariantHoldsAtReset :=
  ⟨fun _ hc => State.resetWith_inv hc [], State.resetWith_inv (by decide) []⟩

end Sys2Proof.Machine
end

section
/-!
PROOFS. Refusals and faults (60_exceptions.md): which reason is reported first, and what ends a run.
-/

namespace Sys2Proof

/-! ### The reasons of the decoder, one at a time (30_encoding.md R67) -/

/-- An EDGE word has a reserved bit set exactly where RSV is not 0. -/
theorem decodeEdge_eq_reservedBits {c : Config} {w : Word} :
    decodeEdge c w = .error .reservedBits ↔ w.rsv ≠ 0#5 := by
  by_cases hrsv : w.rsv = 0#5
  · by_cases htick : c.modulus ≤ w.tickField.toNat
    · simp [decodeEdge, hrsv, htick]
    · cases hpol : w.pol <;> simp [decodeEdge, hrsv, htick, hpol]
  · simp [decodeEdge, hrsv]

/-- The range of TICK is tested where RSV is 0. -/
theorem decodeEdge_eq_tickRange {c : Config} {w : Word} :
    decodeEdge c w = .error .tickRange ↔ w.rsv = 0#5 ∧ c.modulus ≤ w.tickField.toNat := by
  by_cases hrsv : w.rsv = 0#5
  · by_cases htick : c.modulus ≤ w.tickField.toNat
    · simp [decodeEdge, hrsv, htick]
    · cases hpol : w.pol <;> simp [decodeEdge, hrsv, htick, hpol]
  · simp [decodeEdge, hrsv]

/-- A word with no operand has a reserved bit set exactly where bits 29:0 are not all 0. -/
theorem decodeStrobe_eq_reservedBits {i : Instr} {w : Word} :
    decodeStrobe i w = .error .reservedBits ↔ w.belowOp ≠ 0#30 := by
  by_cases h : w.belowOp = 0#30 <;> simp [decodeStrobe, h]

/-- The two bits of OP have four values. -/
theorem Word.op_cases (w : Word) : w.op = 0#2 ∨ w.op = 1#2 ∨ w.op = 2#2 ∨ w.op = 3#2 := by
  have hop : ∀ op : BitVec 2, op = 0#2 ∨ op = 1#2 ∨ op = 2#2 ∨ op = 3#2 := by decide
  exact hop w.op

/-- The part of the decoder that each OP selects (30_encoding.md R66). -/
theorem decodeFields_of_op {c : Config} {w : Word} :
    (w.op = 0#2 → decodeFields c w = decodeEdge c w) ∧
    (w.op = 1#2 → decodeFields c w = decodeStrobe .timeout w) ∧
    (w.op = 2#2 → decodeFields c w = decodeStrobe .reset w) ∧
    (w.op = 3#2 → decodeFields c w = .error .reservedOp) := by
  refine ⟨?_, ?_, ?_, ?_⟩
  all_goals
    intro h
    simp [decodeFields, h]

/-- OP = 11 is reported as RESERVED_OP, and nothing else is. -/
theorem decodeFields_eq_reservedOp {c : Config} {w : Word} :
    decodeFields c w = .error .reservedOp ↔ 3 * 2 ^ 30 ≤ w.toNat := by
  obtain ⟨h0, h1, h2, h3⟩ := @decodeFields_of_op c w
  have hop := w.op_toNat
  rcases w.op_cases with h | h | h | h <;> rw [h, BitVec.toNat_ofNat] at hop
  · rw [h0 h]
    refine iff_of_false (fun he => ?_) (by omega)
    rcases decodeEdge_eq_error he with hr | hr <;> cases hr
  · rw [h1 h]
    exact iff_of_false (fun he => nomatch decodeStrobe_eq_error he) (by omega)
  · rw [h2 h]
    exact iff_of_false (fun he => nomatch decodeStrobe_eq_error he) (by omega)
  · rw [h3 h]
    exact iff_of_true rfl (by omega)

/-- A set bit where the form of the word has none is reported as RESERVED_BITS. -/
theorem decodeFields_eq_reservedBits {c : Config} {w : Word} (hop3 : ¬ 3 * 2 ^ 30 ≤ w.toNat) :
    decodeFields c w = .error .reservedBits ↔
      (w.toNat < 2 ^ 30 ∧ w.toNat / 2 ^ 24 % 2 ^ 5 ≠ 0) ∨ (2 ^ 30 ≤ w.toNat ∧ w.toNat % 2 ^ 30 ≠ 0) := by
  obtain ⟨h0, h1, h2, -⟩ := @decodeFields_of_op c w
  have hop := w.op_toNat
  rcases w.op_cases with h | h | h | h <;> rw [h, BitVec.toNat_ofNat] at hop
  · rw [h0 h, decodeEdge_eq_reservedBits, ne_eq, ← BitVec.toNat_inj, Word.rsv_toNat, BitVec.toNat_ofNat]
    omega
  · rw [h1 h, decodeStrobe_eq_reservedBits, ne_eq, ← BitVec.toNat_inj, Word.belowOp_toNat, BitVec.toNat_ofNat]
    omega
  · rw [h2 h, decodeStrobe_eq_reservedBits, ne_eq, ← BitVec.toNat_inj, Word.belowOp_toNat, BitVec.toNat_ofNat]
    omega
  · omega

/-- A tick of 2^W or more is reported as TICK_RANGE where no reserved bit is set. -/
theorem decodeFields_eq_tickRange {c : Config} {w : Word} :
    decodeFields c w = .error .tickRange ↔
      w.toNat < 2 ^ 30 ∧ w.toNat / 2 ^ 24 % 2 ^ 5 = 0 ∧ 2 ^ c.tickWidth ≤ w.toNat % 2 ^ 24 := by
  obtain ⟨h0, h1, h2, h3⟩ := @decodeFields_of_op c w
  have hop := w.op_toNat
  rcases w.op_cases with h | h | h | h <;> rw [h, BitVec.toNat_ofNat] at hop
  · rw [h0 h, decodeEdge_eq_tickRange, ← BitVec.toNat_inj, Word.rsv_toNat, BitVec.toNat_ofNat, Word.tickField_toNat,
      Config.modulus, Nat.zero_mod]
    exact (and_iff_right (by omega)).symm
  · rw [h1 h]
    exact iff_of_false (fun he => nomatch decodeStrobe_eq_error he) (by omega)
  · rw [h2 h]
    exact iff_of_false (fun he => nomatch decodeStrobe_eq_error he) (by omega)
  · rw [h3 h]
    exact iff_of_false nofun (by omega)

/-- A wide timer is reported as WORD_TOO_NARROW before the word is looked at. -/
theorem decode_of_not_fitsWord {c : Config} (hc : c.WellFormed) (hf : ¬ c.FitsWord) (w : Word) :
    decode c w = .error .wordTooNarrow := by
  rw [decode, if_neg (not_not.2 hc), if_pos hf]

end Sys2Proof

namespace Sys2Proof.Machine

/-! ### The refusals of a step -/

/-- A record with a tick out of range is refused with the record (assumption 7). -/
theorem exec_of_not_wellFormed {s : State} {i : Instr} (hc : s.cfg.WellFormed) (hi : ¬ i.WellFormed s.cfg) :
    exec i s = .refused (.tickRange (.record i)) := by
  rw [exec_eq_runStimulus]
  exact runStimulus_eq_refused.2 (.inr ⟨hc, hi, rfl⟩)

/-- Settles O9: a tick of 2^W or more makes the record ill-formed. -/
theorem recordTickOutOfRangeIsRefused : Obligations.RecordTickOutOfRangeIsRefused := fun _ _ hc ht =>
  ⟨exec_of_not_wellFormed hc (not_lt.2 ht), exec_of_not_wellFormed hc (not_lt.2 ht)⟩

/-- Settles O10: with an empty port a step is the idle step. -/
theorem idleStepHoldsTheState : Obligations.IdleStepHoldsTheState := by
  intro s hin hc hs
  rw [step_nil hin]
  exact idle_eq_next.2 ⟨hc, hs, rfl⟩

/-- A word at the head of the port that does not decode is refused with the reason of the decoder. -/
theorem step_of_decode_error {s : State} {w : Word} {rest : List Input} {r : Reject} (hin : s.input = .word w :: rest)
    (hd : decode s.cfg w = .error r) : step s = .refused (refusalOf s.cfg w r) :=
  step_of_read_error hin (Input.read_word_error hd)

/-- Settles O6: the tests of `decode` in their order, each by the lemma of its reason; a word that passes all of them
decodes, since the fields of a word give no other reason. -/
theorem firstReasonThatHoldsIsReported : Obligations.FirstReasonThatHoldsIsReported := by
  refine ⟨fun s w rest hin => ?_, fun s i rest hin => ?_⟩
  · by_cases hc : ¬ s.cfg.WellFormed
    · rw [if_pos hc]
      exact step_eq_badConfig.2 ⟨hc, rfl⟩
    rw [if_neg hc]
    rw [not_not] at hc
    by_cases hwide : 24 < s.cfg.tickWidth
    · rw [if_pos hwide]
      exact step_of_decode_error hin (decode_of_not_fitsWord hc (not_le.2 hwide) w)
    rw [if_neg hwide]
    have hd := decode_eq_decodeFields hc (not_lt.1 hwide) w
    split_ifs with hop hbits htick
    · exact step_of_decode_error hin (hd.trans (decodeFields_eq_reservedOp.2 hop))
    · exact step_of_decode_error hin (hd.trans ((decodeFields_eq_reservedBits hop).2 hbits))
    · exact step_of_decode_error hin (hd.trans (decodeFields_eq_tickRange.2 ⟨htick.1, by omega, htick.2⟩))
    · cases hf : decodeFields s.cfg w with
      | ok i =>
        have hi := hd.trans hf
        exact ⟨i, (encodeOfDecodeIsTheWord s.cfg w i hi).2, step_of_read_ok hin (Input.read_word_ok hi)⟩
      | error r =>
        rcases decodeFields_eq_error hf with rfl | rfl | rfl
        · exact absurd (decodeFields_eq_reservedOp.1 hf) hop
        · exact absurd ((decodeFields_eq_reservedBits hop).1 hf) hbits
        · obtain ⟨hlt, -, ht⟩ := decodeFields_eq_tickRange.1 hf
          exact absurd ⟨hlt, ht⟩ htick
  · have hstep : step s = exec i { s with input := rest } := step_of_read_ok hin rfl
    split_ifs with hc htick
    · exact hstep.trans (exec_of_not_wellFormed hc (not_lt.2 htick))
    · exact ⟨not_le.1 htick, hstep⟩
    · exact step_eq_badConfig.2 ⟨hc, rfl⟩

/-- A stimulus is refused under a well-formed configuration only for its tick. -/
theorem exec_eq_refused {s : State} {i : Instr} {r : Refusal} (hc : s.cfg.WellFormed) (h : exec i s = .refused r) :
    ¬ i.WellFormed s.cfg ∧ r = .tickRange (.record i) := by
  rw [exec_eq_runStimulus] at h
  rcases runStimulus_eq_refused.1 h with ⟨hc', -⟩ | ⟨-, hi, hr⟩
  · exact absurd hc hc'
  · exact ⟨hi, hr⟩

/-- What a refused step under a well-formed configuration has at the head of its port: a word that does not decode, since
a word that decodes gives a well-formed stimulus (O3), or a record with a tick out of range. -/
theorem step_eq_refused {s : State} {r : Refusal} (hc : s.cfg.WellFormed) (h : step s = .refused r) :
    (∃ w rest e, s.input = .word w :: rest ∧ decode s.cfg w = .error e ∧ r = refusalOf s.cfg w e) ∨
    ∃ i rest, s.input = .record i :: rest ∧ ¬ i.WellFormed s.cfg ∧ r = .tickRange (.record i) := by
  cases hin : s.input with
  | nil =>
    rw [step_nil hin] at h
    exact absurd hc (idle_eq_refused.1 h).1
  | cons x rest =>
    cases x with
    | record i =>
      rw [step_of_read_ok hin rfl] at h
      exact .inr ⟨i, rest, rfl, exec_eq_refused (s := { s with input := rest }) hc h⟩
    | word w =>
      cases hd : decode s.cfg w with
      | error e =>
        rw [step_of_decode_error hin hd] at h
        exact .inl ⟨w, rest, e, rfl, hd, (Host.Outcome.refused.inj h).symm⟩
      | ok i =>
        rw [step_of_read_ok hin (Input.read_word_ok hd)] at h
        exact absurd (encodeOfDecodeIsTheWord s.cfg w i hd).2
          (exec_eq_refused (s := { s with input := rest }) hc h).1

/-! ### Runs -/

section
variable {s t : State}

/-- A run whose first step answers a next state goes on from there. -/
theorem run_succ_of_next (h : step s = .next t) (k : Nat) :
    Host.Core.run core (k + 1) s = Host.Core.run core k t := by
  simp only [Host.Core.run, Host.Check.core_step, h]

/-- A refusal ends the run. -/
theorem run_succ_of_refused {r : Refusal} (h : step s = .refused r) (k : Nat) :
    Host.Core.run core (k + 1) s = .refused r := by
  simp only [Host.Core.run, Host.Check.core_step, h]

/-- A fault ends the run. -/
theorem run_succ_of_fault {r : Fault} (h : step s = .fault r) (k : Nat) :
    Host.Core.run core (k + 1) s = .fault r := by
  simp only [Host.Core.run, Host.Check.core_step, h]

/-- A run that answers a next state goes on from there. -/
theorem run_add_of_next {k : Nat} (h : Host.Core.run core k s = .next t) (n : Nat) :
    Host.Core.run core (k + n) s = Host.Core.run core n t := by
  induction k generalizing s with
  | zero =>
    obtain rfl : s = t := Host.Outcome.next.inj h
    rw [Nat.zero_add]
  | succ k ih =>
    rw [Nat.succ_add]
    cases hstep : step s with
    | next u =>
      rw [run_succ_of_next hstep] at h
      rw [run_succ_of_next hstep, ih h]
    | fault r => cases (run_succ_of_fault hstep k).symm.trans h
    | refused r => cases (run_succ_of_refused hstep k).symm.trans h

end

/-- Settles O7: the refusals of a step by `step_eq_badConfig` and `step_eq_refused`; a run that reaches the state is refused
at its next step. -/
theorem refusalNamesItsReasonAndIsKept : Obligations.RefusalNamesItsReasonAndIsKept := by
  intro s r h
  refine ⟨?_, fun s₀ k n hrun => ?_⟩
  · by_cases hc : s.cfg.WellFormed
    · refine .inr ?_
      rcases step_eq_refused hc h with ⟨w, rest, e, hin, hd, rfl⟩ | ⟨i, rest, hin, hi, rfl⟩
      · refine .inl ⟨hc, w, rest, hin, ?_⟩
        cases e with
        | badConfig => exact absurd hc (decode_eq_badConfig.1 hd)
        | wordTooNarrow => exact .inr (.inr (.inr ⟨rfl, rfl⟩))
        | reservedOp => exact .inl ⟨rfl, rfl⟩
        | reservedBits => exact .inr (.inl ⟨rfl, rfl⟩)
        | tickRange => exact .inr (.inr (.inl ⟨rfl, rfl⟩))
      · exact .inr ⟨hc, i, rest, hin, not_lt.1 hi, rfl, rfl⟩
    · obtain rfl : Refusal.badConfig s.cfg = r :=
        Host.Outcome.refused.inj ((step_eq_badConfig.2 ⟨hc, rfl⟩).symm.trans h)
      exact .inl ⟨hc, rfl, rfl⟩
  · rw [Nat.add_assoc, run_add_of_next hrun, Nat.add_comm 1 n]
    exact run_succ_of_refused h n

/-! ### Good input -/

/-- An accepted item is read as a well-formed stimulus. -/
theorem Input.accepted_iff {c : Config} {x : Input} :
    x.accepted c = true ↔ ∃ i, x.read c = .ok i ∧ i.WellFormed c := by
  unfold Input.accepted
  cases x.read c <;> simp

/-- From a state that meets the invariant, with an accepted item or none at the head of the port, a step answers a next
state (41_stimulus_operations.md R99). -/
theorem State.Inv.step_next {s : State} (hinv : s.Inv) (hacc : s.InputAccepted) : ∃ t, step s = .next t := by
  obtain ⟨hc, -, hs, -⟩ := hinv
  cases hin : s.input with
  | nil => exact ⟨_, idleStepHoldsTheState s hin hc hs⟩
  | cons x rest =>
    obtain ⟨i, hr, hi⟩ := Input.accepted_iff.1 (hacc x (hin ▸ List.mem_cons_self))
    have hready : State.Ready { s with input := rest } i := ⟨hc, hi, hs⟩
    exact ⟨_, (step_of_read_ok hin hr).trans hready.exec_eq⟩

/-- A step leaves accepted input behind accepted input. -/
theorem State.InputAccepted.step {s t : State} (hacc : s.InputAccepted) (h : step s = .next t) : t.InputAccepted := by
  obtain ⟨hcfg, hinput⟩ := step_cfg_input h
  intro x hx
  rw [hcfg]
  exact hacc x (List.mem_of_mem_tail (hinput ▸ hx))

/-- Settles O40: the invariant (O39) and the accepted input are kept by every step, and with both a step answers a next
state. -/
theorem goodInputNeverStopsARun : Obligations.GoodInputNeverStopsARun := by
  intro s hinv hacc k
  induction k generalizing s with
  | zero => exact ⟨s, rfl⟩
  | succ k ih =>
    obtain ⟨t, hstep⟩ := hinv.step_next hacc
    obtain ⟨u, hrun⟩ := ih t (everyStepKeepsTheInvariant s t hinv hstep) (hacc.step hstep)
    exact ⟨u, (run_succ_of_next hstep k).trans hrun⟩

/-! ### The fault -/

/-- A step from a legal state does not fault. -/
theorem step_ne_fault {s : State} (hs : s.Legal) (r : Fault) : step s ≠ .fault r := by
  intro h
  cases hin : s.input with
  | nil =>
    rw [step_nil hin, idle_eq_fault] at h
    exact h.2.1 hs
  | cons x rest =>
    cases hr : x.read s.cfg with
    | error e => cases (step_of_read_error hin hr).symm.trans h
    | ok i =>
      rw [step_of_read_ok hin hr, exec_eq_runStimulus, runStimulus_eq_fault] at h
      obtain ⟨-, -, hillegal, -⟩ := h
      exact hillegal hs

/-- A step leaves a legal state. -/
theorem step_legal {s t : State} (h : step s = .next t) : t.Legal := by
  rcases step_eq_next h with ⟨-, -, hs, rfl⟩ | ⟨x, rest, i, -, -, hexec⟩
  · exact s.strobeLow_legal.2 hs
  · exact exec_legal hexec

/-- A run from a legal state does not fault. -/
theorem run_ne_fault {s : State} (hs : s.Legal) (k : Nat) (r : Fault) : Host.Core.run core k s ≠ .fault r := by
  induction k generalizing s with
  | zero => nofun
  | succ k ih =>
    cases hstep : step s with
    | next t =>
      rw [run_succ_of_next hstep]
      exact ih (step_legal hstep)
    | fault r' => exact absurd hstep (step_ne_fault hs r')
    | refused r' =>
      rw [run_succ_of_refused hstep]
      nofun

/-- A well-formed stimulus faults from a state that breaks an invariant, which the fault records. -/
theorem exec_of_not_legal {s : State} {i : Instr} (hc : s.cfg.WellFormed) (hi : i.WellFormed s.cfg) (hs : ¬ s.Legal) :
    exec i s = .fault (.unreachableState s) := by
  rw [exec_eq_runStimulus]
  exact runStimulus_eq_fault.2 ⟨hc, hi, hs, rfl⟩

/-- Settles O41: the guard faults from a state that breaks an invariant, which no run from reset reaches. -/
theorem onlyUnreachableStatesFault : Obligations.OnlyUnreachableStatesFault := by
  refine ⟨fun s i rest n hc hi hs => ⟨exec_of_not_legal hc hi hs, ?_⟩, fun _ => rfl, fun c input k r => ?_⟩
  · refine run_succ_of_fault ?_ n
    exact (step_of_read_ok (s := { s with input := .record i :: rest }) rfl rfl).trans
      (exec_of_not_legal (s := { s with input := rest }) hc hi hs)
  · exact run_ne_fault (State.FrameIdle.legal ⟨rfl, rfl, rfl⟩) k r

end Sys2Proof.Machine
end

section
/-!
PROOFS. The delta as modular arithmetic (40_interval_classifier.md R80), and the class of every delta under a well-formed
configuration (section 2 there).
-/

namespace Sys2Proof.Machine

/-! ### The delta -/

/-- The reference tick plus the delta is the tick, modulo 2^W. -/
theorem add_delta_modEq (c : Config) (a t : Tick) : a.toNat + delta c a t ≡ t.toNat [MOD c.modulus] := by
  rw [← Int.natCast_modEq_iff, Nat.cast_add, delta_cast]
  simpa using (Int.mod_modEq ((t.toNat : Int) - a.toNat) c.modulus).add_left a.toNat

/-- Only the delta does that, up to multiples of 2^W. -/
theorem delta_eq_mod {c : Config} {a t : Tick} {d : Nat} (h : a.toNat + d ≡ t.toNat [MOD c.modulus]) :
    delta c a t = d % c.modulus := by
  have hd : delta c a t ≡ d [MOD c.modulus] := Nat.ModEq.add_left_cancel' a.toNat ((add_delta_modEq c a t).trans h.symm)
  exact (Nat.mod_eq_of_lt (delta_lt_modulus c a t)).symm.trans hd

/-- The edge that the assembler puts `d` ticks after `t` has the delta `d`, where a delta can be that long. -/
theorem delta_tickAfter {c : Config} (hc : c.WellFormed) (t : Tick) {d : Nat} (hd : d < c.modulus) :
    delta c t (tickAfter c t d) = d := by
  refine (delta_eq_mod (d := d) ?_).trans (Nat.mod_eq_of_lt hd)
  rw [tickAfter_toNat hc]
  exact (Nat.mod_modEq _ _).symm

/-- Settles O12: the range by `delta_lt_modulus`, the sum by `add_delta_modEq`. -/
theorem deltaIsModularDifference : Obligations.DeltaIsModularDifference := fun c a t _ ht =>
  ⟨delta_lt_modulus c a t, Eq.trans (add_delta_modEq c a t) (Nat.mod_eq_of_lt ht)⟩

/-- Settles O46: both claims name a number that leads from the first tick to the second, modulo 2^W. -/
theorem timerWrapAndLostEdges : Obligations.TimerWrapAndLostEdges := by
  refine ⟨fun c time L hc => delta_eq_mod ?_, fun c a b t => delta_eq_mod ?_⟩
  · rw [tickAt_toNat hc, tickAt_toNat hc]
    exact ((Nat.mod_modEq _ _).add_right L).trans (Nat.mod_modEq _ _).symm
  · rw [← Nat.add_assoc]
    exact ((add_delta_modEq c a b).add_right _).trans (add_delta_modEq c b t)

/-! ### The classes -/

section
variable {c : Config} {d : Nat}

/-- The class ABORT is the threshold. -/
theorem classify_eq_abort_iff : classify c d = .abort ↔ c.abort ≤ d :=
  ⟨fun h => by simpa [h] using classify_cases c d, classify_eq_abort⟩

/-- The class LEADER is its window. -/
theorem classify_eq_leader_iff (hc : c.WellFormed) : classify c d = .leader ↔ c.InLeaderWindow d := by
  refine ⟨fun h => ?_, classify_of_inLeaderWindow hc⟩
  have hd : d < c.abort ∧ c.leadMin ≤ d ∧ d ≤ c.leadMax := by simpa [h] using classify_cases c d
  exact hd.2

/-- The class NOISE is what no window and no threshold claims. -/
theorem classify_eq_noise_iff (hc : c.WellFormed) : classify c d = .noise ↔ c.InNoWindow d := by
  refine ⟨fun h => ⟨?_, fun hl => ?_, fun b hb => ?_⟩, classify_of_inNoWindow⟩
  · exact not_le.1 fun ha => nomatch h.symm.trans (classify_eq_abort ha)
  · exact nomatch h.symm.trans (classify_of_inLeaderWindow hc hl)
  · have hk := h.symm.trans ((classify_eq_bit_iff hc b).2 hb)
    cases b <;> cases hk

end

/-- Settles O14: one equivalence per class; the windows are in order, so what they leave are the four ranges of NOISE. -/
theorem classesPartitionTheDeltas : Obligations.ClassesPartitionTheDeltas := by
  intro c d hc _
  refine ⟨classify_eq_bit_iff hc false, classify_eq_bit_iff hc true, classify_eq_leader_iff hc, classify_eq_abort_iff,
    (classify_eq_noise_iff hc).trans ?_⟩
  rw [Config.wellFormed_iff] at hc
  simp only [Config.InNoWindow, Config.InLeaderWindow, Config.InBitWindow, Bool.forall_bool, Bool.false_eq_true, if_false,
    if_true]
  omega

/-- Settles O15: each range lies in one range of the partition (O14) with the bounds of RC1. -/
theorem referenceConfigurationClasses : Obligations.ReferenceConfigurationClasses := by
  refine ⟨fun d hd => ?_, by decide⟩
  obtain ⟨hzero, hone, hlead, habort, hnoise⟩ := classesPartitionTheDeltas Config.rc1 d (by decide) hd
  simp only [Config.rc1] at hzero hone hlead habort hnoise ⊢
  split_ifs
  · exact hnoise.2 (by omega)
  · exact hzero.2 (by omega)
  · exact hnoise.2 (by omega)
  · exact hone.2 (by omega)
  · exact hnoise.2 (by omega)
  · exact hlead.2 (by omega)
  · exact hnoise.2 (by omega)
  · exact habort.2 (by omega)

end Sys2Proof.Machine
end

section
/-!
PROOFS. What a falling edge does to the frame registers and what it leaves (42_frame_assembly.md section 2), the validity
check as the source writes it (section 3 there), and the position of the next bit (10_state.md section 1).
-/

namespace Sys2Proof.Machine

/-! ### The validity check -/

/-- A value is untouched by clearing the bits of another exactly where they have no bit in common. -/
theorem and_not_eq_self_iff (x y : Byte) : x &&& ~~~y = x ↔ x &&& y = 0#8 := by
  have hbit : ∀ a b : Bool, (a && !b) = a ↔ (a && b) = false := by decide
  constructor
  · intro h
    apply BitVec.eq_of_getLsbD_eq
    intro k hk
    have hk' := congrArg (BitVec.getLsbD · k) h
    simp only [BitVec.getLsbD_and, BitVec.getLsbD_not, hk, decide_true, Bool.true_and] at hk'
    rw [BitVec.getLsbD_and, (hbit _ _).1 hk', BitVec.getLsbD_zero]
  · intro h
    apply BitVec.eq_of_getLsbD_eq
    intro k hk
    have hk' := congrArg (BitVec.getLsbD · k) h
    rw [BitVec.getLsbD_and, BitVec.getLsbD_zero] at hk'
    rw [BitVec.getLsbD_and, BitVec.getLsbD_not, decide_eq_true hk, Bool.true_and, (hbit _ _).2 hk']

/-- A frame of two pairs of complements passes the check (42_frame_assembly.md section 4). -/
theorem valid_frameOf_not (a k : Byte) : valid (frameOf a (~~~a) k (~~~k)) = true := by
  rw [valid_iff, frameAddr_frameOf, frameNaddr_frameOf, frameCmd_frameOf, frameNcmd_frameOf]
  exact ⟨BitVec.and_not_self a, BitVec.and_not_self k⟩

/-- Settles O25: the two forms of the check agree half by half. -/
theorem sourceFormulaAgreesWithTheCheck : Obligations.SourceFormulaAgreesWithTheCheck := by
  refine ⟨fun f => (valid_iff f).trans ?_, valid_frameOf_not⟩
  exact and_congr (and_not_eq_self_iff _ _).symm (and_not_eq_self_iff _ _).symm

/-! ### The position of the next bit -/

/-- Settles O37: the byte index is BIT_CNT / 8 and the bit position 7 - BIT_CNT mod 8. -/
theorem byteAndBitPositionNameTheNextBit : Obligations.ByteAndBitPositionNameTheNextBit := by
  intro s
  have hlt := s.bitCnt.isLt
  have hbyte : s.byteIndex = s.bitCnt.toNat / 8 := by
    rw [State.byteIndex, BitVec.extractLsb'_toNat, Nat.shiftRight_eq_div_pow]
    omega
  have hbit : s.bitInByte = 7 - s.bitCnt.toNat % 8 := by
    rw [State.bitInByte, BitVec.extractLsb'_toNat, Nat.shiftRight_zero]
  omega

/-! ### Class actions, with the class that does each -/

/-- A bit interval is ignored, or it is accepted because bits count. -/
theorem State.bitInterval_cases (b : Bool) (s : State) :
    s.bitInterval b = s ∨ (s.BitsCount ∧ s.bitInterval b = s.acceptBit b) := by
  by_cases h : s.BitsCount
  · exact .inr ⟨h, State.bitInterval_of_bitsCount b h⟩
  · rw [State.BitsCount, not_or, Bool.not_eq_false, Bool.not_eq_true] at h
    exact .inl (State.bitInterval_of_noFrame b h.1 h.2)

/-- ABORT resets the frame, LEADER opens one, and every other class leaves the state or enters a bit. -/
theorem State.classAction_by_class (k : IntervalClass) (s : State) :
    (k = .abort ∧ s.classAction k = s.frameReset) ∨ (k = .leader ∧ s.classAction k = s.openFrame) ∨
    s.classAction k = s ∨ ∃ b, s.BitsCount ∧ s.classAction k = s.acceptBit b := by
  cases k with
  | abort => exact .inl ⟨rfl, rfl⟩
  | leader => exact .inr (.inl ⟨rfl, rfl⟩)
  | noise => exact .inr (.inr (.inl rfl))
  | zero => exact .inr (.inr ((State.bitInterval_cases false s).imp id fun h => ⟨false, h⟩))
  | one => exact .inr (.inr ((State.bitInterval_cases true s).imp id fun h => ⟨true, h⟩))

/-- A falling edge after the first one does what its class does (41_stimulus_operations.md R100). -/
theorem State.fallingEdge_of_hasLast {s : State} (t : Tick) (hl : s.hasLast = true) :
    s.fallingEdge t = { s with tLast := t }.classAction (classify s.cfg (delta s.cfg s.tLast t)) := if_pos hl

/-- Only LEADER opens a frame. -/
theorem State.classAction_opens {k : IntervalClass} {s : State} (hf : s.inFrame = false)
    (h : (s.classAction k).inFrame = true) : k = .leader := by
  rcases State.classAction_by_class k s with ⟨-, hk⟩ | ⟨rfl, -⟩ | hk | ⟨b, -, hk⟩
  · simp [hk] at h
  · rfl
  · simp [hk, hf] at h
  · rcases State.acceptBit_cases b s with ⟨-, ha⟩ | ⟨-, ha⟩ <;> simp [hk, ha, hf] at h

/-- Only ABORT and a completed frame close one. -/
theorem State.classAction_closes {k : IntervalClass} {s : State} (hf : s.inFrame = true)
    (h : (s.classAction k).inFrame = false) : k = .abort ∨ (s.classAction k).evt ≠ none := by
  rcases State.classAction_by_class k s with ⟨rfl, -⟩ | ⟨-, hk⟩ | hk | ⟨b, -, hk⟩
  · exact .inl rfl
  · simp [hk] at h
  · simp [hk, hf] at h
  · rcases State.acceptBit_cases b s with ⟨-, ha⟩ | ⟨-, ha⟩
    · exact .inr (by simp [hk, ha])
    · simp [hk, ha, hf] at h

/-- A falling edge that opens a frame is no first edge, and its class is LEADER. -/
theorem State.fallingEdge_opens {s : State} {t : Tick} (hf : s.inFrame = false)
    (h : (s.fallingEdge t).inFrame = true) :
    s.hasLast = true ∧ classify s.cfg (delta s.cfg s.tLast t) = .leader := by
  cases hl : s.hasLast with
  | false =>
    rw [State.fallingEdge_of_hasLast_eq_false t hl] at h
    cases hf.symm.trans h
  | true =>
    rw [State.fallingEdge_of_hasLast t hl] at h
    exact ⟨rfl, State.classAction_opens (s := { s with tLast := t }) hf h⟩

/-- A falling edge that closes a frame has the class ABORT or completes the frame. -/
theorem State.fallingEdge_closes {s : State} {t : Tick} (hf : s.inFrame = true)
    (h : (s.fallingEdge t).inFrame = false) :
    classify s.cfg (delta s.cfg s.tLast t) = .abort ∨ (s.fallingEdge t).evt ≠ none := by
  cases hl : s.hasLast with
  | false =>
    rw [State.fallingEdge_of_hasLast_eq_false t hl] at h
    cases hf.symm.trans h
  | true =>
    rw [State.fallingEdge_of_hasLast t hl] at h ⊢
    exact State.classAction_closes (s := { s with tLast := t }) hf h

/-- An action that neither resets nor opens a frame and emits nothing leaves IN_FRAME, and SHIFT but for the next bit. -/
theorem State.classAction_leaves {k : IntervalClass} {s : State} (ha : k ≠ .abort) (hl : k ≠ .leader)
    (hevt : (s.classAction k).evt = none) :
    (s.classAction k).inFrame = s.inFrame ∧
    ∀ j, j ≠ 31 - s.bitCnt.toNat → (s.classAction k).shift.getLsbD j = s.shift.getLsbD j := by
  rcases State.classAction_by_class k s with ⟨hk, -⟩ | ⟨hk, -⟩ | hk | ⟨b, -, hk⟩
  · exact absurd hk ha
  · exact absurd hk hl
  · rw [hk]
    exact ⟨rfl, fun _ _ => rfl⟩
  · rcases State.acceptBit_cases b s with ⟨-, hb⟩ | ⟨-, hb⟩
    · simp [hk, hb] at hevt
    · rw [hk, hb]
      exact ⟨rfl, fun j hj => (s.getLsbD_shiftWith b j).trans (if_neg hj)⟩

/-! ### The statements -/

/-- Settles O17: a delta at or above the threshold has the class ABORT, whose action is FrameReset; where the frame is idle
already, that changes nothing. -/
theorem abortResetsTheFrame : Obligations.AbortResetsTheFrame := by
  intro s t h hl ha
  have hexec := exec_edgeF_of_class h hl (classify_eq_abort ha)
  refine ⟨hexec.trans (congrArg _ ?_), fun hidle => hexec.trans (congrArg _ ?_)⟩
  · rw [← hl]
    rfl
  · obtain ⟨hf, hb, hs⟩ := hidle
    rw [State.classAction, State.frameReset, ← hf, ← hb, ← hs]

/-- Settles O33: TIMEOUT, RESET and EDGE.R are told from their effects, EDGE.F from its class. -/
theorem onlyALeaderOpensAFrame : Obligations.OnlyALeaderOpensAFrame := by
  intro s s' i h
  obtain ⟨hc, -, -, rfl⟩ := exec_eq_next.1 h
  cases i with
  | timeout => exact ⟨nofun, fun _ _ => .inl rfl⟩
  | reset => exact ⟨nofun, fun _ _ => .inr (.inl rfl)⟩
  | edgeR t => exact ⟨fun hf hf' => (nomatch hf.symm.trans hf'), fun hf hf' => (nomatch hf.symm.trans hf')⟩
  | edgeF t =>
    refine ⟨fun hf hf' => ⟨t, rfl, ?_⟩, fun hf hf' => .inr (.inr ⟨t, rfl, ?_⟩)⟩
    · exact (State.fallingEdge_opens (s := s.strobeLow) hf hf').imp_right (classify_eq_leader_iff hc).1
    · exact (State.fallingEdge_closes (s := s.strobeLow) hf hf').imp_left classify_eq_abort_iff.1

/-- The frame registers and the trace are left by an edge of class NOISE, and by a first edge. -/
theorem State.fallingEdge_of_noise {s : State} {t : Tick} (hk : classify s.cfg (delta s.cfg s.tLast t) = .noise) :
    s.fallingEdge t = { s with tLast := t, hasLast := true } := by
  cases hl : s.hasLast with
  | false => exact State.fallingEdge_of_hasLast_eq_false t hl
  | true =>
    rw [State.fallingEdge_of_hasLast t hl, hk, ← hl]
    rfl

/-- Settles O35: configuration, port and trace by the lemmas over every stimulus; the rest by the effect of each. -/
theorem stimuliLeaveTheRestUnchanged : Obligations.StimuliLeaveTheRestUnchanged := by
  intro s s' i h
  obtain ⟨hcfg, hinput⟩ := exec_cfg_input h
  refine ⟨hcfg, hinput, fun hevt => ?_, ?_⟩
  · rcases exec_event h with ⟨-, htrace⟩ | ⟨f, hevt', -⟩
    · exact htrace
    · cases hevt.symm.trans hevt'
  · obtain ⟨-, -, -, rfl⟩ := exec_eq_next.1 h
    refine ⟨?_, ?_, ?_, ?_, ?_⟩
    · rintro t rfl
      rfl
    · rintro rfl
      exact ⟨rfl, rfl⟩
    · rintro rfl
      rfl
    · rintro t rfl hk
      rw [effectOf, State.fallingEdge_of_noise (s := s.strobeLow) hk]
      exact ⟨rfl, rfl, rfl, rfl⟩
    · rintro t rfl hevt hl hlead habort
      rw [effectOf, State.fallingEdge_of_hasLast (s := s.strobeLow) t hl] at hevt ⊢
      exact State.classAction_leaves habort hlead hevt

end Sys2Proof.Machine
end

section
/-!
PROOFS. Nothing but the five registers and the configuration enters a step (10_state.md R20, R29): not the earlier strobe,
not the trace, not later stimuli, and not a T_LAST that HAS_LAST = 0 hides (41_stimulus_operations.md R107). Hence what one
cycle presents can be run from the port or as a list (60_exceptions.md R146).
-/

namespace Sys2Proof.Machine

/-! ### The trace and the port are carried along -/

/-- The same registers and strobe, in a run that had recorded `tr` before this stimulus and has `input` waiting. -/
def State.withPorts (tr : List Event) (input : List Input) (s : State) : State :=
  { s with trace := tr ++ s.evt.toList, input := input }

/-- `AcceptBit` carries trace and port along. -/
theorem State.acceptBit_withPorts {s : State} (b : Bool) (tr : List Event) (input : List Input) (he : s.evt = none) :
    (s.withPorts tr input).acceptBit b = (s.acceptBit b).withPorts tr input := by
  unfold State.acceptBit
  by_cases hn : s.bitCnt = 31#5
  · rw [if_pos hn, if_pos (c := (s.withPorts tr input).bitCnt = 31#5) hn]
    simp [State.withPorts, State.emit, State.frameReset, State.shiftWith, he]
  · rw [if_neg hn, if_neg (c := (s.withPorts tr input).bitCnt = 31#5) hn]
    rfl

/-- The ZERO and ONE actions carry trace and port along. -/
theorem State.bitInterval_withPorts {s : State} (b : Bool) (tr : List Event) (input : List Input) (he : s.evt = none) :
    (s.withPorts tr input).bitInterval b = (s.bitInterval b).withPorts tr input := by
  by_cases hcount : s.BitsCount
  · rw [State.bitInterval_of_bitsCount b hcount,
      State.bitInterval_of_bitsCount (s := s.withPorts tr input) b hcount, State.acceptBit_withPorts b tr input he]
  · rw [State.BitsCount, not_or, Bool.not_eq_false, Bool.not_eq_true] at hcount
    obtain ⟨hr, hf⟩ := hcount
    rw [State.bitInterval_of_noFrame b hr hf, State.bitInterval_of_noFrame (s := s.withPorts tr input) b hr hf]

/-- Every class action carries trace and port along. -/
theorem State.classAction_withPorts {s : State} (k : IntervalClass) (tr : List Event) (input : List Input)
    (he : s.evt = none) : (s.withPorts tr input).classAction k = (s.classAction k).withPorts tr input := by
  cases k with
  | abort => rfl
  | leader => rfl
  | noise => rfl
  | zero => exact State.bitInterval_withPorts false tr input he
  | one => exact State.bitInterval_withPorts true tr input he

/-- Every effect that starts with the strobe low carries trace and port along. -/
theorem effectOf_withPorts {s : State} (i : Instr) (tr : List Event) (input : List Input) (he : s.evt = none) :
    effectOf i (s.withPorts tr input) = (effectOf i s).withPorts tr input := by
  cases i with
  | edgeF t =>
    cases hl : s.hasLast with
    | false =>
      rw [effectOf, State.fallingEdge_of_hasLast_eq_false t hl,
        State.fallingEdge_of_hasLast_eq_false (s := s.withPorts tr input) t hl]
      rfl
    | true =>
      rw [effectOf, State.fallingEdge_of_hasLast t hl, State.fallingEdge_of_hasLast (s := s.withPorts tr input) t hl]
      exact State.classAction_withPorts (s := { s with tLast := t }) _ tr input he
  | edgeR t => rfl
  | timeout => rfl
  | reset => rfl

/-- A state that differs in strobe, trace and port answers the same registers and strobe. -/
theorem exec_with_ports {i : Instr} {s s' : State} (h : exec i s = .next s') (e : Option Event) (tr : List Event)
    (input : List Input) :
    exec i { s with evt := e, trace := tr, input := input } = .next (s'.withPorts tr input) := by
  obtain ⟨hc, hi, hs, rfl⟩ := exec_eq_next.1 h
  refine exec_eq_next.2 ⟨hc, hi, hs, ?_⟩
  rw [← effectOf_withPorts i tr input s.strobeLow_evt]
  simp [State.withPorts, State.strobeLow]

/-- Settles O36: the head of the port is read alike, and `exec` carries the rest along. -/
theorem nothingButTheFiveRegistersCarriesOver : Obligations.NothingButTheFiveRegistersCarriesOver := by
  intro s s' e tr rest rest' x h
  cases hr : x.read s.cfg with
  | error r => cases (step_of_read_error (s := { s with input := x :: rest }) rfl hr).symm.trans h
  | ok i =>
    rw [step_of_read_ok (s := { s with input := x :: rest }) rfl hr] at h
    refine ⟨s'.withPorts tr rest', ?_, rfl, rfl, rfl, rfl, rfl, rfl, rfl, rfl⟩
    exact (step_of_read_ok (s := { s with evt := e, trace := tr, input := x :: rest' }) rfl hr).trans
      (exec_with_ports h e tr rest')

/-! ### A hidden T_LAST -/

/-- Of two states with HAS_LAST = 0 that differ in T_LAST alone, every effect makes two that no output tells apart. -/
theorem effectOf_hidden_tLast {s : State} (i : Instr) (v : Tick) (hl : s.hasLast = false) :
    (effectOf i s).SameObservable (effectOf i { s with tLast := v }) := by
  cases i with
  | edgeF t =>
    rw [effectOf, State.fallingEdge_of_hasLast_eq_false t hl,
      State.fallingEdge_of_hasLast_eq_false (s := { s with tLast := v }) t hl]
    exact ⟨rfl, fun _ => rfl⟩
  | edgeR t => exact ⟨rfl, fun h => nomatch hl.symm.trans h⟩
  | timeout => exact ⟨rfl, nofun⟩
  | reset => exact ⟨rfl, nofun⟩

/-- States that no output tells apart are equal, or differ in a hidden T_LAST. -/
theorem State.SameObservable.eq_or_hidden {s t : State} (h : s.SameObservable t) :
    t = s ∨ (s.hasLast = false ∧ t = { s with tLast := t.tLast }) := by
  obtain ⟨hregs, htick⟩ := h
  have ht : t = { s with tLast := t.tLast } := congrArg (fun u : State => { u with tLast := t.tLast }) hregs.symm
  rcases Bool.eq_false_or_eq_true s.hasLast with hl | hl
  · exact .inl (ht.trans (by rw [← htick hl]))
  · exact .inr ⟨hl, ht⟩

theorem State.SameObservable.refl (s : State) : s.SameObservable s := ⟨rfl, fun _ => rfl⟩

/-- A stimulus that completes completes from a state that no output tells apart, with the same output. -/
theorem State.SameObservable.exec {s t s' : State} {i : Instr} (hobs : s.SameObservable t)
    (h : exec i s = .next s') : ∃ t', Machine.exec i t = .next t' ∧ s'.SameObservable t' := by
  rcases hobs.eq_or_hidden with rfl | ⟨hl, ht⟩
  · exact ⟨s', h, .refl s'⟩
  · obtain ⟨hc, hi, hs, rfl⟩ := exec_eq_next.1 h
    rw [ht]
    exact ⟨_, exec_eq_next.2 ⟨hc, hi, (s.legal_with_tLast _).2 hs, rfl⟩,
      effectOf_hidden_tLast (s := s.strobeLow) i t.tLast hl⟩

/-- The same of a step. -/
theorem State.SameObservable.step {s t s' : State} (hobs : s.SameObservable t) (h : step s = .next s') :
    ∃ t', Machine.step t = .next t' ∧ s'.SameObservable t' := by
  rcases hobs.eq_or_hidden with rfl | ⟨hl, ht⟩
  · exact ⟨s', h, .refl s'⟩
  · rw [ht]
    rcases step_eq_next h with ⟨hin, hc, hs, rfl⟩ | ⟨x, rest, i, hin, hr, hexec⟩
    · refine ⟨_, idleStepHoldsTheState _ hin hc ((s.legal_with_tLast _).2 hs), rfl, fun h' => ?_⟩
      cases hl.symm.trans h'
    · rw [step_of_read_ok (s := { s with tLast := t.tLast }) hin hr]
      have hrest : s.takeStimulus.SameObservable { s with tLast := t.tLast, input := rest } := by
        rw [State.takeStimulus, hin]
        exact ⟨rfl, fun h' => nomatch hl.symm.trans h'⟩
      exact hrest.exec hexec

/-- Settles O45: RESET and TIMEOUT leave the same but for T_LAST, which HAS_LAST = 0 hides; a run keeps that step by step. -/
theorem hiddenReferenceTickIsUnobservable : Obligations.HiddenReferenceTickIsUnobservable := by
  refine ⟨fun s r t hr ht => ?_, fun s t s' k hobs hrun => ?_⟩
  · obtain ⟨-, -, -, rfl⟩ := exec_eq_next.1 hr
    obtain ⟨-, -, -, rfl⟩ := exec_eq_next.1 ht
    exact ⟨rfl, nofun⟩
  · induction k generalizing s t with
    | zero =>
      obtain rfl : s = s' := Host.Outcome.next.inj hrun
      exact ⟨t, rfl, hobs⟩
    | succ k ih =>
      cases hstep : step s with
      | next u =>
        obtain ⟨v, hv, huv⟩ := hobs.step hstep
        rw [run_succ_of_next hstep] at hrun
        rw [run_succ_of_next hv]
        exact ih u v huv hrun
      | fault r => cases (run_succ_of_fault hstep k).symm.trans hrun
      | refused r => cases (run_succ_of_refused hstep k).symm.trans hrun

/-! ### Stimuli of one cycle -/

/-- A ready stimulus leaves what waits at the port out of account. -/
theorem exec_with_input {i : Instr} {s s' : State} (h : exec i s = .next s') (input : List Input) :
    exec i { s with input := input } = .next { s' with input := input } := by
  have htrace : s'.trace = s.trace ++ s'.evt.toList := by
    rcases exec_event h with ⟨he, ht⟩ | ⟨f, he, ht⟩
    · rw [he, ht, Option.toList_none, List.append_nil]
    · rw [he, ht, Option.toList_some]
  rw [exec_with_ports h s.evt s.trace input, State.withPorts, ← htrace]

/-- `execAll` goes on from the next state that its first stimulus answers. -/
theorem execAll_cons_of_next {i : Instr} {s s' : State} (h : exec i s = .next s') (is : List Instr) :
    execAll (i :: is) s = execAll is s' := by
  rw [execAll, h]

/-- A refused stimulus ends `execAll`. -/
theorem execAll_cons_of_refused {i : Instr} {s : State} {r : Refusal} (h : exec i s = .refused r) (is : List Instr) :
    execAll (i :: is) s = .refused r := by
  rw [execAll, h]

/-- From a legal state under a well-formed configuration, stepping through records at the port is running their list. -/
theorem run_records (is : List Instr) {s : State} (hc : s.cfg.WellFormed) (hs : s.Legal) (hin : s.input = []) :
    Host.Core.run core is.length { s with input := is.map .record } = execAll is s := by
  induction is generalizing s with
  | nil => exact congrArg _ (by rw [List.map_nil, ← hin])
  | cons i is ih =>
    have hstep : step { s with input := (i :: is).map .record } = exec i { s with input := is.map .record } :=
      step_of_read_ok rfl rfl
    by_cases hi : i.WellFormed s.cfg
    · have hexec := State.Ready.exec_eq (s := s) ⟨hc, hi, hs⟩
      obtain ⟨hcfg, hinput⟩ := exec_cfg_input hexec
      rw [execAll_cons_of_next hexec, List.length_cons, run_succ_of_next (hstep.trans (exec_with_input hexec _))]
      exact ih (hcfg ▸ hc) (exec_legal hexec) (hinput.trans hin)
    · rw [execAll_cons_of_refused (exec_of_not_wellFormed hc hi), List.length_cons]
      exact run_succ_of_refused (hstep.trans (exec_of_not_wellFormed (s := { s with input := _ }) hc hi)) _

/-- A coinciding RESET leaves the start state to the edge, whether or not TIMEOUT coincides too. -/
theorem execAll_cycle_reset {s : State} (hc : s.cfg.WellFormed) (hs : s.Legal) (timeout : Bool)
    (edge : Option (Bool × Tick)) :
    execAll (Cycle.stimuli ⟨true, timeout, edge⟩) s = execAll (Cycle.stimuli ⟨false, false, edge⟩)
      { State.resetWith s.cfg with trace := s.trace, input := s.input } := by
  have hpos := s.cfg.modulus_pos
  have hreset := State.Ready.exec_eq (s := s) (i := .reset) ⟨hc, hpos, hs⟩
  cases timeout with
  | false => exact execAll_cons_of_next hreset _
  | true =>
    have htimeout := (s.strobeLow.resetEffect_frameIdle.ready (i := .timeout) hc hpos).exec_eq
    exact (execAll_cons_of_next hreset _).trans (execAll_cons_of_next htimeout _)

/-- A coinciding TIMEOUT alone leaves the start state to the edge, but for T_LAST. -/
theorem execAll_cycle_timeout {s : State} (hc : s.cfg.WellFormed) (hs : s.Legal) (edge : Option (Bool × Tick)) :
    execAll (Cycle.stimuli ⟨false, true, edge⟩) s = execAll (Cycle.stimuli ⟨false, false, edge⟩)
      { State.resetWith s.cfg with tLast := s.tLast, trace := s.trace, input := s.input } :=
  execAll_cons_of_next (State.Ready.exec_eq (s := s) (i := .timeout) ⟨hc, s.cfg.modulus_pos, hs⟩) _

/-- A lone falling edge with HAS_LAST = 0 is a first edge. -/
theorem execAll_cycle_edgeF {s : State} {t : Tick} (h : s.Ready (.edgeF t)) (hl : s.hasLast = false) :
    execAll (Cycle.stimuli ⟨false, false, some (false, t)⟩) s =
      .next { s with tLast := t, hasLast := true, evt := none } :=
  execAll_cons_of_next (exec_edgeF_of_hasLast_eq_false h hl) []

/-- A lone rising edge lowers the strobe. -/
theorem execAll_cycle_edgeR {s : State} {t : Tick} (h : s.Ready (.edgeR t)) :
    execAll (Cycle.stimuli ⟨false, false, some (true, t)⟩) s =
      .next { s with evt := none } :=
  execAll_cons_of_next h.exec_eq []

/-- Settles O47: the lists by definition, the run by `run_records`; what RESET or TIMEOUT leaves is an idle frame with
HAS_LAST = 0, from which the edge of the cycle is taken. -/
theorem sameCycleStimuliInPriorityOrder : Obligations.SameCycleStimuliInPriorityOrder := by
  refine ⟨fun t edge is h => ?_, fun s k hc hs hin => ?_, fun s t timeout h => ?_, fun s t h => ?_⟩
  · rcases h with ⟨rfl, rfl⟩ | ⟨rfl, rfl⟩ | ⟨rfl, rfl⟩ <;> exact ⟨rfl, rfl, rfl, rfl⟩
  · rw [← run_records k.stimuli hc hs hin, State.present, State.deliver, hin, List.nil_append]
  · obtain ⟨hc, hi, hs⟩ := h
    have hready : State.Ready { State.resetWith s.cfg with trace := s.trace, input := s.input } (.edgeF t) :=
      State.FrameIdle.ready ⟨rfl, rfl, rfl⟩ hc hi
    rw [execAll_cycle_reset hc hs, execAll_cycle_reset hc hs]
    exact ⟨execAll_cycle_edgeF hready rfl, execAll_cycle_edgeR hready⟩
  · obtain ⟨hc, hi, hs⟩ := h
    have hready : State.Ready { State.resetWith s.cfg with tLast := s.tLast, trace := s.trace, input := s.input }
        (.edgeF t) := State.FrameIdle.ready ⟨rfl, rfl, rfl⟩ hc hi
    rw [execAll_cycle_timeout hc hs, execAll_cycle_timeout hc hs]
    exact ⟨execAll_cycle_edgeF hready rfl, execAll_cycle_edgeR hready⟩

end Sys2Proof.Machine
end

section
/-!
PROOFS. Whole frames (42_frame_assembly.md): what a start of a frame and the accepted bits after it leave, the round trip of
every frame word, and the falling edges that an event takes.
-/

namespace Sys2Proof

/-! ### Every interval of a window is a delta -/

theorem Config.InBitWindow.lt_modulus {c : Config} {b : Bool} {d : Nat} (h : c.InBitWindow b d) (hc : c.WellFormed) :
    d < c.modulus := by
  rw [Config.wellFormed_iff] at hc
  rw [Config.modulus]
  cases b with
  | false =>
    have hd : c.zeroMin ≤ d ∧ d ≤ c.zeroMax := h
    omega
  | true =>
    have hd : c.oneMin ≤ d ∧ d ≤ c.oneMax := h
    omega

theorem Config.InLeaderWindow.lt_modulus {c : Config} {d : Nat} (h : c.InLeaderWindow d) (hc : c.WellFormed) :
    d < c.modulus := by
  rw [Config.wellFormed_iff] at hc
  rw [Config.modulus]
  omega

end Sys2Proof

namespace Sys2Proof.Machine

/-- The ticks of the assembler's edges are W-bit values. -/
theorem tickAfter_lt_modulus {c : Config} (hc : c.WellFormed) (t : Tick) (d : Nat) :
    (tickAfter c t d).toNat < c.modulus := by
  rw [tickAfter_toNat hc]
  exact Nat.mod_lt _ c.modulus_pos

/-- Stimuli run after others that answer a next state. -/
theorem execAll_append_of_next {is : List Instr} {s s' : State} (h : execAll is s = .next s') (js : List Instr) :
    execAll (is ++ js) s = execAll js s' := by
  induction is generalizing s with
  | nil =>
    obtain rfl : s = s' := Host.Outcome.next.inj h
    rfl
  | cons i is ih =>
    cases hi : exec i s with
    | next u =>
      rw [execAll_cons_of_next hi] at h
      rw [List.cons_append, execAll_cons_of_next hi, ih h]
    | fault r => simp [execAll, hi] at h
    | refused r => simp [execAll, hi] at h

/-! ### The bits of a frame -/

/-- `s` is reached from the start `s₀` of a frame by accepting `bits`, none of which completed the frame: nothing was
emitted, further bits count, and the bits stand in SHIFT, the first one in bit 31 (10_state.md R23, R24). -/
structure State.Received (s₀ s : State) (bits : List Bool) : Prop where
  cfg : s.cfg = s₀.cfg
  trace : s.trace = s₀.trace
  inFrame : s.inFrame = s₀.inFrame
  hasLast : s.hasLast = true
  legal : s.Legal
  bitsCount : s.BitsCount
  bitCnt : s.bitCnt.toNat = bits.length
  entered : ∀ k (h : k < bits.length), s.shift.getLsbD (31 - k) = bits[k]

/-- The positions after the received bits are 0 (I2). -/
theorem State.Received.clear {s₀ s : State} {bits : List Bool} (h : s₀.Received s bits) {j : Nat}
    (hj : j < 32 - bits.length) : s.shift.getLsbD j = false := by
  obtain ⟨hclear, -, -⟩ := h.legal
  exact s.shiftClear_iff.1 hclear j (by rwa [h.bitCnt])

/-- Where bits count and none is held, none is received. -/
theorem State.Received.nil {s : State} (hl : s.hasLast = true) (hs : s.Legal) (hcount : s.BitsCount)
    (hn : s.bitCnt = 0#5) : s.Received s [] where
  cfg := rfl
  trace := rfl
  inFrame := rfl
  hasLast := hl
  legal := hs
  bitsCount := hcount
  bitCnt := by rw [hn]; rfl
  entered := nofun

/-- Entering the next bit of an incomplete frame. -/
theorem State.Received.acceptBit {s₀ s : State} {bits : List Bool} (h : s₀.Received s bits) (b : Bool)
    (hlt : bits.length < 31) : s₀.Received (s.acceptBit b) (bits ++ [b]) := by
  have hn : s.bitCnt ≠ 31#5 := by
    intro hn
    have := h.bitCnt
    rw [hn, BitVec.toNat_ofNat] at this
    omega
  have hlegal := State.acceptBit_legal b h.legal h.hasLast h.bitsCount
  obtain ⟨hn', -⟩ | ⟨-, ha⟩ := State.acceptBit_cases b s
  · exact absurd hn' hn
  rw [ha] at hlegal ⊢
  refine ⟨h.cfg, h.trace, h.inFrame, h.hasLast, hlegal, h.bitsCount, ?_, fun k hk => ?_⟩
  · rw [State.bitCnt_succ_toNat hn, h.bitCnt, List.length_append, List.length_singleton]
  · rw [List.length_append, List.length_singleton] at hk
    rw [State.getLsbD_shiftWith, h.bitCnt]
    by_cases hlast : k = bits.length
    · rw [if_pos (by omega), List.getElem_append_right hlast.ge, List.getElem_singleton]
    · rw [if_neg (by omega), List.getElem_append_left (by omega), h.entered k (by omega)]

/-- The tick and the strobe do not enter what is received. -/
theorem State.Received.with_tLast_evt {s₀ s : State} {bits : List Bool} (h : s₀.Received s bits) (t : Tick)
    (e : Option Event) : s₀.Received { s with tLast := t, evt := e } bits :=
  ⟨h.cfg, h.trace, h.inFrame, h.hasLast, (State.legal_congr rfl rfl rfl rfl rfl).1 h.legal, h.bitsCount, h.bitCnt,
    h.entered⟩

/-- The word that the 32nd bit completes. -/
theorem State.Received.completed {s₀ s : State} {bits : List Bool} (h : s₀.Received s bits) (hlen : bits.length = 31)
    {f : Word} (hf : ∀ k (hk : k < bits.length), bits[k] = f.getLsbD (31 - k)) :
    f = (s.shift ||| if f.getLsbD 0 then 1#32 else 0#32) := by
  have hone : ∀ b : Bool, (if b then 1#32 else 0#32) = BitVec.setWidth 32 (BitVec.ofBool b) := by decide
  apply BitVec.eq_of_getLsbD_eq
  intro j hj
  rw [BitVec.getLsbD_or, hone, BitVec.getLsbD_setWidth, decide_eq_true hj, Bool.true_and]
  cases j with
  | zero =>
    rw [h.clear (by omega)]
    simp
  | succ j =>
    have hk := h.entered (30 - j) (by omega)
    rw [hf, show 31 - (30 - j) = j + 1 by omega] at hk
    simp [hk]

/-! ### Running the intervals of a frame -/

section
variable {s₀ s : State} (hc : s₀.cfg.WellFormed)
include hc

/-- A bit interval before the 32nd accepted bit. -/
theorem State.Received.exec_edge {bits : List Bool} (h : s₀.Received s bits) {b : Bool} {d : Nat}
    (hw : s₀.cfg.InBitWindow b d) (hlt : bits.length < 31) :
    ∃ s', exec (.edgeF (tickAfter s₀.cfg s.tLast d)) s = .next s' ∧ s₀.Received s' (bits ++ [b]) ∧
      s'.tLast = tickAfter s₀.cfg s.tLast d := by
  have hready : s.Ready (.edgeF (tickAfter s₀.cfg s.tLast d)) :=
    ⟨h.cfg ▸ hc, h.cfg ▸ tickAfter_lt_modulus hc s.tLast d, h.legal⟩
  have hw' : s.cfg.InBitWindow b (delta s.cfg s.tLast (tickAfter s₀.cfg s.tLast d)) := by
    rwa [h.cfg, delta_tickAfter hc _ (hw.lt_modulus hc)]
  have hexec := (exec_edgeF_of_inBitWindow hready h.hasLast hw').trans
    (congrArg _ (State.bitInterval_of_bitsCount b h.bitsCount))
  exact ⟨_, hexec, (h.with_tLast_evt _ none).acceptBit b hlt, State.acceptBit_tLast b _⟩

/-- Bit intervals in a row, before the 32nd accepted bit. -/
theorem State.Received.execAll_edges {bits more : List Bool} {gaps : List Nat} (h : s₀.Received s bits)
    (hw : List.Forall₂ s₀.cfg.InBitWindow more gaps) (hlt : bits.length + more.length < 32) :
    ∃ s', execAll (edgesAfter s₀.cfg s.tLast gaps) s = .next s' ∧ s₀.Received s' (bits ++ more) ∧
      s'.tLast = gaps.foldl (tickAfter s₀.cfg) s.tLast := by
  induction hw generalizing s bits with
  | nil => exact ⟨s, rfl, by rwa [List.append_nil], rfl⟩
  | @cons b d more gaps hb hw ih =>
    rw [List.length_cons] at hlt
    obtain ⟨u, hexec, hu, htick⟩ := h.exec_edge hc hb (by omega)
    obtain ⟨s', hall, hs', htick'⟩ := ih hu (by rw [List.length_append, List.length_singleton]; omega)
    rw [htick] at hall htick'
    rw [List.append_assoc] at hs'
    exact ⟨s', (execAll_cons_of_next hexec _).trans hall, hs', htick'⟩

end

/-- A start of a frame leaves a state in which bits count and none is held. -/
theorem State.StartsFrame.execAll_edges {s : State} {start : List Nat} (h : s.StartsFrame start) (hinv : s.Inv)
    (hl : s.hasLast = true) :
    ∃ u, execAll (edgesAfter s.cfg s.tLast start) s = .next u ∧ u.Received u [] ∧ u.cfg = s.cfg ∧ u.trace = s.trace ∧
      u.inFrame = (if start = [] then s.inFrame else true) ∧ u.tLast = start.foldl (tickAfter s.cfg) s.tLast := by
  obtain ⟨hc, -, hs, -⟩ := hinv
  rcases h with ⟨lead, rfl, hlead⟩ | ⟨rfl, hcount, hn⟩
  · have hw : s.cfg.InLeaderWindow (delta s.cfg s.tLast (tickAfter s.cfg s.tLast lead)) := by
      rwa [delta_tickAfter hc _ (hlead.lt_modulus hc)]
    have hexec := leaderOpensAnEmptyFrame s _ ⟨hc, tickAfter_lt_modulus hc _ _, hs⟩ hl hw
    exact ⟨_, execAll_cons_of_next hexec [], .nil hl (exec_legal hexec) (.inr rfl) rfl, rfl, rfl, rfl, rfl⟩
  · exact ⟨s, rfl, .nil hl hs hcount hn, rfl, rfl, rfl, rfl⟩

/-- A start of a frame and fewer than 32 bit intervals after it: what is received. -/
theorem State.StartsFrame.execAll_bits {s : State} {start : List Nat} (h : s.StartsFrame start) (hinv : s.Inv)
    (hl : s.hasLast = true) {bits : List Bool} {gaps : List Nat} (hw : List.Forall₂ s.cfg.InBitWindow bits gaps)
    (hlt : bits.length < 32) :
    ∃ u s' : State, execAll (edgesAfter s.cfg s.tLast (start ++ gaps)) s = .next s' ∧ u.Received s' bits ∧ u.cfg = s.cfg ∧
      u.trace = s.trace ∧ u.inFrame = (if start = [] then s.inFrame else true) ∧
      s'.tLast = (start ++ gaps).foldl (tickAfter s.cfg) s.tLast := by
  obtain ⟨hc, -⟩ := id hinv
  obtain ⟨u, hstart, hu, hcfg, htrace, hframe, htick⟩ := h.execAll_edges hinv hl
  rw [← hcfg] at hc hw
  obtain ⟨s', hbits, hs', htick'⟩ := hu.execAll_edges hc hw (by rwa [List.length_nil, Nat.zero_add])
  rw [hcfg, htick] at hbits htick'
  refine ⟨u, s', ?_, hs', hcfg, htrace, hframe, by rw [htick', List.foldl_append]⟩
  rw [edgesAfter_append, execAll_append_of_next hstart, hbits]

/-- Settles O43: what is received after the start stands in the fields of the state. -/
theorem acceptedBitsSitMostSignificantFirst : Obligations.AcceptedBitsSitMostSignificantFirst := by
  intro s start bits gaps hinv hl hstart hlt hlen hw
  have hwindows : List.Forall₂ s.cfg.InBitWindow bits gaps :=
    List.forall₂_iff_get.2 ⟨hlen.symm, fun k hk hk' => hw k hk' hk⟩
  obtain ⟨u, s', hall, hs', -, htrace, hframe, -⟩ := hstart.execAll_bits hinv hl hwindows hlt
  exact ⟨s', hall, hs'.trace.trans htrace, hs'.inFrame.trans hframe, hs'.bitCnt, hs'.entered, fun _ => hs'.clear⟩

/-- The first 31 bits of a frame word, the most significant first. -/
def leadingBits (f : Word) : List Bool := (List.range 31).map fun k => f.getLsbD (31 - k)

theorem leadingBits_length (f : Word) : (leadingBits f).length = 31 := by
  rw [leadingBits, List.length_map, List.length_range]

theorem leadingBits_getElem (f : Word) (k : Nat) (hk : k < (leadingBits f).length) :
    (leadingBits f)[k] = f.getLsbD (31 - k) := by
  simp only [leadingBits, List.getElem_map, List.getElem_range]

/-- Settles O42: after the start and 31 bits, all but the last bit of the word is received (`execAll_bits`); the last edge
brings the 32nd bit, which completes the word (O21). -/
theorem everyFrameWordRoundTrips : Obligations.EveryFrameWordRoundTrips := by
  intro s f start gaps hinv hl hstart hlen hw
  have hgaps : gaps = gaps.take 31 ++ [gaps[31]] := by
    rw [List.take_append_getElem, List.take_of_length_le (by omega)]
  have hwindows : List.Forall₂ s.cfg.InBitWindow (leadingBits f) (gaps.take 31) := by
    refine List.forall₂_iff_get.2 ⟨?_, fun k hk hk' => ?_⟩
    · rw [leadingBits_length, List.length_take, hlen]
      rfl
    · simpa [leadingBits_getElem] using hw k (by rw [leadingBits_length] at hk; omega)
  obtain ⟨u, v, hall, hv, hcfg, htrace, -, htick⟩ :=
    hstart.execAll_bits hinv hl hwindows (by rw [leadingBits_length]; decide)
  obtain ⟨hc, -⟩ := hinv
  have hvc : v.cfg = s.cfg := hv.cfg.trans hcfg
  have hlast : v.cfg.InBitWindow (f.getLsbD 0) (delta v.cfg v.tLast (tickAfter s.cfg v.tLast gaps[31])) := by
    have hwin := hw 31 (by omega)
    rwa [hvc, delta_tickAfter hc _ (hwin.lt_modulus hc)]
  have hready : v.Ready (.edgeF (tickAfter s.cfg v.tLast gaps[31])) :=
    ⟨hvc ▸ hc, hvc ▸ tickAfter_lt_modulus hc _ _, hv.legal⟩
  have hexec := (acceptedBitEntersTheFrame v _ _ hready hv.hasLast hlast hv.bitsCount).2
    (hv.bitCnt.trans (leadingBits_length f)) f (hv.completed (leadingBits_length f) (leadingBits_getElem f))
  have hsplit : execAll (edgesAfter s.cfg s.tLast (start ++ gaps)) s =
      execAll [.edgeF (tickAfter s.cfg v.tLast gaps[31])] v := by
    conv_lhs => rw [hgaps, ← List.append_assoc, edgesAfter_append, execAll_append_of_next hall, ← htick]
    rfl
  refine ⟨_, hsplit.trans (execAll_cons_of_next hexec []), by rw [hv.trace, htrace], rfl, fun a k hf => ?_⟩
  subst hf
  exact ⟨congrArg some (congrArg₂ (Event.mk _) (frameCmd_frameOf _ _ _ _) (valid_frameOf_not a k)),
    frameAddr_frameOf _ _ _ _⟩

/-! ### The edges that an event takes -/

/-- The falling edges that a state has taken at the least: the reference edge, the leader where one is required, and one
for each bit that is held (70_reset_and_hazards.md R163). -/
def State.edgesTaken (s : State) : Nat :=
  s.hasLast.toNat + (s.cfg.requireLeader && s.inFrame).toNat + s.bitCnt.toNat

/-- With no frame open and no bit held, only the reference edge counts. -/
theorem State.FrameIdle.edgesTaken {s : State} (h : s.FrameIdle) : s.edgesTaken = s.hasLast.toNat := by
  obtain ⟨hf, hb, -⟩ := h
  simp [State.edgesTaken, hf, hb]

/-- FrameReset takes no edge. -/
theorem State.frameReset_edgesTaken (s : State) : s.frameReset.edgesTaken ≤ s.edgesTaken := by
  rw [s.frameReset_frameIdle.edgesTaken, State.edgesTaken, State.frameReset_hasLast]
  omega

/-- A leader takes one edge and gives those of the held bits back. -/
theorem State.openFrame_edgesTaken (s : State) : s.openFrame.edgesTaken ≤ s.edgesTaken + 1 := by
  have hle := s.cfg.requireLeader.toNat_le
  simp only [State.edgesTaken, State.openFrame_hasLast, State.openFrame_cfg, State.openFrame_inFrame,
    State.openFrame_bitCnt, Bool.and_true, BitVec.toNat_zero]
  omega

/-- Entering a bit takes one edge; a completed frame gives its edges back. -/
theorem State.acceptBit_edgesTaken (b : Bool) (s : State) : (s.acceptBit b).edgesTaken ≤ s.edgesTaken + 1 := by
  rcases State.acceptBit_cases b s with ⟨-, ha⟩ | ⟨hn, ha⟩
  · rw [ha]
    exact (State.frameReset_edgesTaken _).trans (Nat.le_succ _)
  · rw [ha]
    simp only [State.edgesTaken, State.bitCnt_succ_toNat hn]
    omega

/-- A class action takes at most one edge. -/
theorem State.classAction_edgesTaken (k : IntervalClass) (s : State) :
    (s.classAction k).edgesTaken ≤ s.edgesTaken + 1 := by
  rcases State.classAction_by_class k s with ⟨-, hk⟩ | ⟨-, hk⟩ | hk | ⟨b, -, hk⟩
  · rw [hk]
    exact s.frameReset_edgesTaken.trans (Nat.le_succ _)
  · rw [hk]
    exact s.openFrame_edgesTaken
  · rw [hk]
    exact Nat.le_succ _
  · rw [hk]
    exact State.acceptBit_edgesTaken b s

/-- With 31 bits held where bits count, the next edge is the 34th, or the 33rd where no leader is required. -/
theorem State.edgesTaken_of_full {s : State} (hl : s.hasLast = true) (hcount : s.BitsCount)
    (hn : s.bitCnt.toNat = 31) : (if s.cfg.requireLeader then 34 else 33) = s.edgesTaken + 1 := by
  rw [State.edgesTaken, hl, hn]
  rcases hcount with hr | hf
  · rw [hr]
    rfl
  · rw [hf]
    cases s.cfg.requireLeader <;> rfl

/-- A falling edge takes at most one edge, and no other stimulus takes any. -/
theorem effectOf_edgesTaken (i : Instr) (s : State) :
    (effectOf i s).edgesTaken ≤ s.edgesTaken + fallingEdges [i] := by
  cases i with
  | edgeF t =>
    change (s.fallingEdge t).edgesTaken ≤ s.edgesTaken + 1
    cases hl : s.hasLast with
    | false =>
      rw [State.fallingEdge_of_hasLast_eq_false t hl]
      simp only [State.edgesTaken, hl, Bool.toNat_true, Bool.toNat_false]
      omega
    | true =>
      rw [State.fallingEdge_of_hasLast t hl]
      exact State.classAction_edgesTaken _ { s with tLast := t }
  | edgeR t => exact le_refl _
  | timeout =>
    exact s.timeoutEffect_frameIdle.edgesTaken.trans_le (Nat.zero_le _)
  | reset =>
    exact s.resetEffect_frameIdle.edgesTaken.trans_le (Nat.zero_le _)

/-- No event before enough edges, counted from any state. -/
theorem execAll_trace_of_few_edges {is : List Instr} {s s' : State} (h : execAll is s = .next s')
    (hfew : s.edgesTaken + fallingEdges is < (if s.cfg.requireLeader then 34 else 33)) : s'.trace = s.trace := by
  induction is generalizing s with
  | nil =>
    obtain rfl : s = s' := Host.Outcome.next.inj h
    rfl
  | cons i is ih =>
    have hsum : fallingEdges (i :: is) = fallingEdges [i] + fallingEdges is := by
      rw [← List.singleton_append, fallingEdges, List.countP_append]
      rfl
    cases hi : exec i s with
    | fault r => simp [execAll, hi] at h
    | refused r => simp [execAll, hi] at h
    | next u =>
      rw [execAll_cons_of_next hi] at h
      rcases eventExactlyOnTheThirtySecondBit s u i hi with ⟨-, htrace, -⟩ | ⟨t, b, f, rfl, hl, -, hcount, hn, -⟩
      · have hu : u.edgesTaken ≤ s.edgesTaken + fallingEdges [i] := by
          obtain ⟨-, -, -, rfl⟩ := exec_eq_next.1 hi
          exact effectOf_edgesTaken i s.strobeLow
        rw [← htrace]
        exact ih h (by rw [(exec_cfg_input hi).1]; omega)
      · have hone : fallingEdges [.edgeF t] = 1 := rfl
        rw [hsum, hone, State.edgesTaken_of_full hl hcount hn] at hfew
        omega

/-- Settles O44: no edge is taken at reset. -/
theorem noEventBeforeEnoughEdges : Obligations.NoEventBeforeEnoughEdges := by
  intro c is s' h hfew
  refine execAll_trace_of_few_edges h (lt_of_eq_of_lt ?_ hfew)
  rw [(State.resetWith_frameIdle c).edgesTaken, State.resetWith_hasLast, Bool.toNat_false, Nat.zero_add]

end Sys2Proof.Machine
end

section
/-!
PROOFS. The lines of a listing (30_encoding.md R71): the intervals of each line, and the ticks of the edges it emits.
-/

namespace Sys2Proof.Machine

/-! ### Bits, the most significant first -/

@[simp] theorem bitsMsbFirst_length {n : Nat} (v : BitVec n) : (bitsMsbFirst v).length = n := by
  rw [bitsMsbFirst, List.length_map, List.length_range]

/-- The bits of two values put together are the bits of the first and then those of the second. -/
theorem bitsMsbFirst_append {m n : Nat} (x : BitVec m) (y : BitVec n) :
    bitsMsbFirst (x ++ y) = bitsMsbFirst x ++ bitsMsbFirst y := by
  rw [bitsMsbFirst, bitsMsbFirst, bitsMsbFirst, List.range_add, List.map_append, List.map_map]
  refine congrArg₂ _ (List.map_congr_left fun k hk => ?_) (List.map_congr_left fun k _ => ?_)
  · rw [BitVec.getMsbD_append, if_neg (not_le.2 (List.mem_range.1 hk))]
  · rw [Function.comp_apply, BitVec.getMsbD_append, if_pos (Nat.le_add_right m k), Nat.add_sub_cancel_left]

/-- The bits of a frame word are those of its four fields in order. -/
theorem bitsMsbFirst_frameOf (a b c d : Byte) :
    bitsMsbFirst (frameOf a b c d) = bitsMsbFirst a ++ bitsMsbFirst b ++ bitsMsbFirst c ++ bitsMsbFirst d := by
  rw [← bitsMsbFirst_append, ← bitsMsbFirst_append, ← bitsMsbFirst_append]
  rfl

/-- Interval `k` of a value's bits is the nominal one of bit n - 1 - k. -/
theorem bitGaps_getElem? (c : Config) {n : Nat} (v : BitVec n) {k : Nat} (hk : k < n) :
    ((bitsMsbFirst v).map (bitGap c))[k]? =
      some (if v.getLsbD (n - 1 - k) then nominalOne c else nominalZero c) := by
  rw [List.getElem?_map, bitsMsbFirst, List.getElem?_map, List.getElem?_range hk, Option.map_some, Option.map_some,
    BitVec.getMsbD, decide_eq_true hk, Bool.true_and, bitGap]

/-! ### Intervals -/

/-- FRAME is a leader and the bits of the frame word of address, command and their complements. -/
theorem AsmLine.gaps_frame (c : Config) (a k : Byte) :
    (AsmLine.frame a k).gaps c = nominalLead c :: (AsmLine.word (frameOf a (~~~a) k (~~~k))).gaps c := by
  rw [AsmLine.gaps, AsmLine.gaps, bitsMsbFirst_frameOf]

/-- Every line that emits edges has an interval. -/
theorem AsmLine.gaps_length_pos (c : Config) {a : AsmLine} (hp : ∀ i, a ≠ .plain i) (ht : ∀ v, a ≠ .setTick v) :
    0 < (a.gaps c).length := by
  cases a with
  | setTick v => exact absurd rfl (ht v)
  | plain i => exact absurd rfl (hp i)
  | gap d => exact Nat.one_pos
  | bit0 => exact Nat.one_pos
  | bit1 => exact Nat.one_pos
  | lead => exact Nat.one_pos
  | repeatCode => exact Nat.one_pos
  | byte v => simp [AsmLine.gaps]
  | frame a k => exact Nat.succ_pos _
  | word w => simp [AsmLine.gaps]

/-- Settles O50: the rows by definition, the bits of a value by `bitGaps_getElem?`. -/
theorem intervalsOfEachPseudoInstruction : Obligations.IntervalsOfEachPseudoInstruction := by
  intro c
  refine ⟨fun d => rfl, rfl, rfl, rfl, rfl, fun v => ⟨?_, fun n hn => bitGaps_getElem? c v hn⟩,
    fun w => ⟨?_, fun n hn => bitGaps_getElem? c w hn⟩, fun a k => ?_⟩
  · rw [AsmLine.gaps, List.length_map, bitsMsbFirst_length]
  · rw [AsmLine.gaps, List.length_map, bitsMsbFirst_length]
  · simp only [AsmLine.gaps, List.map_append, List.cons_append, List.nil_append]

/-! ### Edges over intervals -/

section
variable {c : Config} (hc : c.WellFormed)
include hc

/-- Two sums of ticks in a row are one sum, modulo 2^W. -/
theorem tickAfter_add_mod (t : Tick) (d e : Nat) :
    ((tickAfter c t d).toNat + e) % c.modulus = (t.toNat + (d + e)) % c.modulus := by
  rw [tickAfter_toNat hc, Nat.mod_add_mod, Nat.add_assoc]

/-- The tick of edge `n` is the variable plus the intervals 0 to `n`. -/
theorem edgesAfter_getElem? (t : Tick) (ds : List Nat) {n : Nat} (hn : n < ds.length) :
    ∃ u : Tick, (edgesAfter c t ds)[n]? = some (.edgeF u) ∧ u.toNat = (t.toNat + (ds.take (n + 1)).sum) % c.modulus := by
  induction ds generalizing t n with
  | nil => exact absurd hn (Nat.not_lt_zero n)
  | cons d ds ih =>
    cases n with
    | zero =>
      refine ⟨tickAfter c t d, rfl, ?_⟩
      rw [tickAfter_toNat hc, List.take_succ_cons, List.take_zero, List.sum_singleton]
    | succ n =>
      obtain ⟨u, hu, hval⟩ := ih (tickAfter c t d) (Nat.lt_of_succ_lt_succ hn)
      refine ⟨u, hu, ?_⟩
      rw [hval, tickAfter_add_mod hc, List.take_succ_cons, List.sum_cons]

/-- The variable after at least one interval is its value before plus all of them. -/
theorem foldl_tickAfter_cons (t : Tick) (d : Nat) (ds : List Nat) :
    ((d :: ds).foldl (tickAfter c) t).toNat = (t.toNat + (d :: ds).sum) % c.modulus := by
  induction ds generalizing t d with
  | nil => exact (tickAfter_toNat hc t d).trans (by rw [List.sum_singleton])
  | cons e ds ih =>
    rw [List.foldl_cons, ih, tickAfter_add_mod hc, ← List.sum_cons]

/-- The edges over intervals are well-formed falling edges. -/
theorem edgesAfter_wellFormed (t : Tick) (ds : List Nat) : ∀ i ∈ edgesAfter c t ds, i.WellFormed c := by
  intro i hi
  obtain ⟨n, hn⟩ := List.mem_iff_getElem?.1 hi
  obtain ⟨hlt, -⟩ := List.getElem?_eq_some_iff.1 hn
  rw [edgesAfter_length] at hlt
  obtain ⟨u, hu, hval⟩ := edgesAfter_getElem? hc t ds hlt
  rw [Option.some.inj (hn.symm.trans hu)]
  exact hval.trans_lt (Nat.mod_lt _ c.modulus_pos)

end

/-- Every edge over intervals is a falling edge. -/
theorem fallingEdges_edgesAfter (c : Config) (t : Tick) (ds : List Nat) :
    fallingEdges (edgesAfter c t ds) = ds.length := by
  induction ds generalizing t with
  | nil => rfl
  | cons d ds ih => exact (List.countP_cons_of_pos rfl).trans (congrArg Nat.succ (ih _))

/-! ### Lines -/

/-- Every line but a stimulus stands for the edges over its intervals. -/
theorem AsmLine.expand_of_gaps (c : Config) (t : Tick) {a : AsmLine} (hp : ∀ i, a ≠ .plain i) :
    a.expand c t = edgesAfter c t (a.gaps c) := by
  cases a with
  | plain i => exact absurd rfl (hp i)
  | _ => rfl

/-- Every line but a stimulus and `.TICK` leaves the variable at the last of its edges. -/
theorem AsmLine.tickAfterLine_of_gaps (c : Config) (t : Tick) {a : AsmLine} (hp : ∀ i, a ≠ .plain i)
    (ht : ∀ v, a ≠ .setTick v) : a.tickAfterLine c t = (a.gaps c).foldl (tickAfter c) t := by
  cases a with
  | plain i => exact absurd rfl (hp i)
  | setTick v => exact absurd rfl (ht v)
  | _ => rfl

/-- Settles O48: FRAME is the edges over a leader and the 32 bits of its frame word. -/
theorem frameLineIsALeaderAndThirtyTwoBits : Obligations.FrameLineIsALeaderAndThirtyTwoBits := by
  intro c t a k hc
  have hlen : ((AsmLine.frame a k).gaps c).length = 33 := by
    rw [AsmLine.gaps_frame, AsmLine.gaps, List.length_cons, List.length_map, bitsMsbFirst_length]
  have hexpand : (AsmLine.frame a k).expand c t = edgesAfter c t ((AsmLine.frame a k).gaps c) := rfl
  rw [hexpand]
  refine ⟨by rw [edgesAfter_length, hlen], by rw [fallingEdges_edgesAfter, hlen], rfl, fun n hn => ?_, fun n hn => ?_,
    edgesAfter_wellFormed hc t _⟩
  · rw [AsmLine.gaps_frame, List.getElem?_cons_succ]
    exact bitGaps_getElem? c _ hn
  · exact edgesAfter_getElem? hc t _ (hlen ▸ hn)

/-- Settles O49: stimuli and `.TICK` by definition, any other line by the edges over its intervals. -/
theorem listingEmitsEdgesAtItsIntervals : Obligations.ListingEmitsEdgesAtItsIntervals := by
  refine ⟨fun _ _ _ => ⟨rfl, rfl⟩, fun c t i hi => ⟨rfl, ?_⟩, fun _ _ _ => ⟨rfl, rfl⟩, fun c t a hc hp ht => ?_,
    fun _ _ _ _ => ⟨rfl, rfl, rfl⟩⟩
  · cases i with
    | edgeF u => exact absurd rfl (hi u)
    | edgeR u => rfl
    | timeout => rfl
    | reset => rfl
  · have hpos := AsmLine.gaps_length_pos c hp ht
    rw [AsmLine.expand_of_gaps c t hp, AsmLine.tickAfterLine_of_gaps c t hp ht]
    refine ⟨edgesAfter_length c t _, hpos, fun n hn => edgesAfter_getElem? hc t _ hn, ?_⟩
    obtain ⟨d, ds, hds⟩ := List.exists_cons_of_length_pos hpos
    rw [hds]
    exact foldl_tickAfter_cons hc t d ds

end Sys2Proof.Machine
end
